-- ==== Sys2Proof/Word.lean ====
section
/-! DEFINITION. The value types of spec/00_scope.md R11: byte, u16, u32 and byte string. -/

namespace Sys2Proof

/-- A byte: an unsigned 8-bit value (R11). -/
abbrev Byte := BitVec 8

/-- A u16: an unsigned 16-bit value (R11). A hextet and a type code are u16 values. -/
abbrev U16 := BitVec 16

/-- A u32: an unsigned 32-bit value (R11). A control and status register holds one. -/
abbrev U32 := BitVec 32

/-- A byte string: a finite sequence of bytes indexed from 0 (R13). -/
abbrev Bytes := List Byte

end Sys2Proof
end

