-- ==== Sys2Proof/Config.lean ====
section
/-! DEFINITION. What an implementation of the block fixes: spec/00_scope.md R9 and R34. -/

namespace Sys2Proof

/-- The parameters a model takes as configuration (R9, R34). -/
structure Config where
  /-- `IN_MAX`, the capacity of the input buffer IN in bytes. -/
  inMax : Nat
  /-- `OUT_MAX`, the capacity of the output buffer OUT in bytes. -/
  outMax : Nat
  /-- `BUS_BASE`, whether and where the address spaces sit on a host bus (R49). No rule depends on it. -/
  busBase : Option Nat
  deriving DecidableEq, Repr

/-- The placement the platform chooses. The spec leaves it OPEN (R9, R49), so it has no value here.
Log entry 7. -/
opaque Config.platformBusBase : Option Nat

/-- The default capacities of R9. -/
def Config.default : Config :=
  ⟨8704, 69649, Config.platformBusBase⟩

/-- The capacities R9 allows: any `IN_MAX` of 1 or more, and an `OUT_MAX` no result can overflow (R10). -/
abbrev Config.legal (cfg : Config) : Prop :=
  1 ≤ cfg.inMax ∧ 8 * cfg.inMax + 17 ≤ cfg.outMax ∧ 8704 ≤ cfg.outMax

/-- Every length of a result fits the 32-bit register `OUT_LEN`. R9 does not ask it; R29 reads as if it held
(DEDUCED, log entry 5). -/
abbrev Config.outLenFits (cfg : Config) : Prop := cfg.outMax < 2 ^ 32

/-- What `OUT_LEN` holds after a result of 2^32 bytes or more, which its 32 bits cannot hold. The spec states no
value: a free value (DESIGN CHOICE, log entry 6). -/
opaque Config.overlongLength : Bytes → U32

/-- `CSR_W` (R9). -/
def csrWidth : Nat := 32

/-- `TSET_N`, the number of cells of the type-set store (R9). -/
def tsetCells : Nat := 65536

/-- `HEXTETS`, the number of 16-bit groups of an IPv6 address (R9). -/
def hextets : Nat := 8

/-- `WIN_MAX_BYTES`, the greatest bitmap length of one window (R9). -/
def winMaxBytes : Nat := 32

end Sys2Proof
end

