-- ==== Sys2Proof/Machine/Transaction.lean ====
section
/-! DEFINITION. The host transactions of spec/20_memory.md R42 and what they return. -/

namespace Sys2Proof.Machine

/-- A host transaction (R42), with the write to OUT that R56 names. Indices and register numbers are
nats, so that a transaction outside the ranges of R42 can be written down and refused (R56); a type code
is a u16 and a cell value a bit, so those are always in range. -/
inductive HostTxn where
  /-- `WRIN(i, b)`: store a byte in IN. -/
  | wrin (i : Nat) (b : Byte)
  /-- `RDIN(i)`: read a byte of IN. -/
  | rdin (i : Nat)
  /-- `RDOUT(i)`: read a byte of OUT. -/
  | rdout (i : Nat)
  /-- A write to the OUT space: outside R42, refused by R56. -/
  | wrout (i : Nat) (b : Byte)
  /-- `WRTSET(c, v)`: store a bit in TSET. -/
  | wrtset (c : U16) (v : Bool)
  /-- `RDTSET(c)`: read a bit of TSET. -/
  | rdtset (c : U16)
  /-- `WRCSR(n, v)`: write a control and status register; `n = 0` runs the command `v`. -/
  | wrcsr (n : Nat) (v : U32)
  /-- `RDCSR(n)`: read a control and status register. -/
  | rdcsr (n : Nat)
  /-- `RESET` (R160). -/
  | reset
  deriving DecidableEq, Repr

/-- What a transaction returns (R42, last column). -/
inductive Reply where
  /-- The transaction returns nothing. -/
  | nothing
  /-- A byte of IN or OUT. -/
  | byte (b : Byte)
  /-- A cell of TSET. -/
  | bit (v : Bool)
  /-- A control and status register. -/
  | word (v : U32)
  deriving DecidableEq, Repr

end Sys2Proof.Machine
end

