-- ==== Sys2Proof/Syntax.lean ====
section
/-! DEFINITION. The commands of the block, one constructor per row of spec/opcode_table.json
(spec/30_encoding.md R62). -/

namespace Sys2Proof

/-- A command. It has no immediate, no register field and no mode field: every operand is implicit (R61). -/
inductive Instr where
  /-- EXPAND, R90. -/
  | expand
  /-- EXPANDI, R92. -/
  | expandi
  /-- CONTRACT, R94. -/
  | contract
  /-- REV4, R100. -/
  | rev4
  /-- REV6, R105. -/
  | rev6
  /-- TBMENC, R124. -/
  | tbmenc
  /-- TBMDEC, R126. -/
  | tbmdec
  /-- TSETCLR, R130. -/
  | tsetclr
  deriving DecidableEq, Repr

end Sys2Proof
end

