-- ==== Sys2Proof/WellFormed.lean ====
section
/-! DEFINITION. Well-formedness: every command is well-formed (spec/30_encoding.md R61), and the host
transactions that have a meaning are those in the ranges of spec/20_memory.md R42. -/

namespace Sys2Proof

/-- A command has no field that could be out of range (R61), so every one is well-formed. -/
def Instr.wellFormed : Instr → Bool
  | .expand | .expandi | .contract | .rev4 | .rev6 | .tbmenc | .tbmdec | .tsetclr => true

namespace Machine

/-- The transaction lies in the ranges of R42 (R56: every other one has no meaning). -/
def HostTxn.inRange (cfg : Config) : HostTxn → Bool
  | .wrin i _ => decide (i < cfg.inMax)
  | .rdin i => decide (i < cfg.inMax)
  | .rdout i => decide (i < cfg.outMax)
  | .wrout _ _ => false
  | .wrtset _ _ => true
  | .rdtset _ => true
  | .wrcsr n _ => decide (n < 4)
  | .rdcsr n => decide (n < 4)
  | .reset => true

end Machine

end Sys2Proof
end

