-- ==== Sys2Proof/Decode.lean ====
section
/-! DEFINITION. Decoding and encoding of command words: spec/30_encoding.md R60, R62, R63, R67. -/

namespace Sys2Proof

/-- Why a word is illegal (R63). The block reports both by the same error kind, IllegalCommand. -/
inductive IllegalWord where
  /-- Some bit of the field `zero`, bits 31:8, is not 0. -/
  | nonZeroHighBits
  /-- Bits 31:8 are 0 and the opcode is one R62 does not list. -/
  | unlistedOpcode
  deriving DecidableEq, Repr

/-- The field `opcode`, bits 7:0 of a command word (R60). -/
def opcodeField (v : U32) : Byte := v.extractLsb' 0 8

/-- The field `zero`, bits 31:8 of a command word (R60). -/
def zeroField (v : U32) : BitVec 24 := v.extractLsb' 8 24

/-- The opcode map (R62), read from an opcode to its command. -/
def ofOpcode (b : Byte) : Option Instr :=
  if b = 0x01#8 then some .expand
  else if b = 0x02#8 then some .expandi
  else if b = 0x03#8 then some .contract
  else if b = 0x04#8 then some .rev4
  else if b = 0x05#8 then some .rev6
  else if b = 0x08#8 then some .tbmenc
  else if b = 0x09#8 then some .tbmdec
  else if b = 0x0A#8 then some .tsetclr
  else none

/-- `Decode` (R67), total on all 2^32 words. -/
def decodeWord (v : U32) : Except IllegalWord Instr :=
  if zeroField v ≠ 0#24 then .error .nonZeroHighBits
  else match ofOpcode (opcodeField v) with
    | some i => .ok i
    | none => .error .unlistedOpcode

/-- The opcode of a command, bits 7:0 of its word (R62). -/
def opcodeOf : Instr → Byte
  | .expand => 0x01#8
  | .expandi => 0x02#8
  | .contract => 0x03#8
  | .rev4 => 0x04#8
  | .rev6 => 0x05#8
  | .tbmenc => 0x08#8
  | .tbmdec => 0x09#8
  | .tsetclr => 0x0A#8

/-- The word of a command: bits 31:8 zero, bits 7:0 the opcode (R60). -/
def encode (i : Instr) : U32 := 0#24 ++ opcodeOf i

/-- The instruction the decoder reads from a table word `w` of `nbits` bits, bit 0 the least significant.
A command is one 32-bit value and is never moved as bytes (R46), so there is no byte order to settle.
Bits of `w` at and above `nbits` do not belong to the word; a bit at or above 32 is no bit of any command. -/
def decodeTableWord (nbits w : Nat) : Option Instr :=
  let u := w % 2 ^ nbits
  if u < 2 ^ 32 then (decodeWord (BitVec.ofNat 32 u)).toOption else none

end Sys2Proof
end

