-- ==== Sys2Proof/Machine/State.lean ====
section
/-! DEFINITION. The architectural state (spec/10_state.md), its reset value (R33), and the reasons a step
can stop. -/

namespace Sys2Proof.Machine

/-- A byte buffer: the cells that differ from what an unlisted address reads as, addresses rising. -/
abbrev Memory := List Host.Cell

/-- What an unlisted address of IN or OUT reads as: the reset contents, 0x00 (R33; for OUT also R23). -/
def unlistedByte : Byte := 0x00#8

/-- The canonical form of a buffer: addresses strictly rising, no cell equal to the unlisted byte. -/
abbrev Memory.wf (m : Memory) : Prop :=
  m.Pairwise (fun a b => a.1 < b.1) ∧ ∀ c ∈ m, c.2 ≠ unlistedByte

/-- The type-set store TSET (R24): the codes whose cell is 1, rising. -/
abbrev TypeSet := List U16

/-- The canonical form of a type set: strictly rising, so a set is one list and no code is listed twice. -/
abbrev TypeSet.wf (S : TypeSet) : Prop := S.Pairwise (fun a b => a.toNat < b.toNat)

/-- The error kinds a command can end with (R140, R142). -/
inductive ErrorKind where
  /-- The operand is no valid IPv6 literal (EXPAND, CONTRACT) or IPv4 literal (REV4): R140. -/
  | invalidAddress
  /-- The operand of TBMDEC is no windowed bitmap: R140, R126. -/
  | malformedWireData
  /-- The command word is illegal: R142, R63. -/
  | illegalCommand
  deriving DecidableEq, Repr

/-- The value a command's pseudocode returns (R17): a result byte string or a result type set. -/
inductive CommandValue where
  | bytes (r : Bytes)
  | typeSet (S : TypeSet)
  deriving DecidableEq, Repr

/-- What a command's pseudocode yields (R17): `Ok` of a value, or a raised error. -/
abbrev CommandOutcome := Except ErrorKind CommandValue

/-- The state of the block (R22 to R29), with the host's pending transactions and the last value returned
to it. -/
structure State where
  /-- IN, the input buffer (R22). -/
  inBuf : Memory
  /-- `IN_LEN`, CSR 2 (R28). -/
  inLen : U32
  /-- OUT, the output buffer (R23). -/
  outBuf : Memory
  /-- `OUT_LEN`, CSR 3 (R29). -/
  outLen : U32
  /-- TSET, the type-set store (R24). -/
  tset : TypeSet
  /-- `STATUS`, CSR 1, whole, with its reserved bits (R27). -/
  status : U32
  /-- The host transactions not yet performed, the next one first. The input of a run (R34), not the block's
  own state: log entry 1. -/
  pending : List HostTxn
  /-- What the most recent transaction returned (R42). The model's own field: log entry 2. -/
  reply : Reply
  deriving DecidableEq, Repr

/-- The machine right after reset (R33, R160), with no transaction pending. -/
def State.reset : State where
  inBuf := []
  inLen := 0#32
  outBuf := []
  outLen := 0#32
  tset := []
  status := 0#32
  pending := []
  reply := .nothing

/-- The reasons the machine stops with a fault. There are none: the block never halts, hangs or gets stuck
(R150, R165), and an error of a command is a completion with a non-zero `STATUS.ERR`, a next state (R146).
Log entry 11. -/
inductive Fault
  deriving DecidableEq, Repr

/-- The reasons a step is refused. R56 refuses a host transaction outside the ranges of R42: it is not a
step, returns no value and changes nothing. Safe: a run that contains one is outside every claim. -/
inductive Refusal where
  /-- An instruction that has no meaning yet. No arm of `exec` raises it. Safe. -/
  | notModelled (mnemonic : String)
  /-- Raised by `WRIN` and `RDIN` with `i >= IN_MAX` (R56). Safe. -/
  | inIndexOutOfRange (i : Nat)
  /-- Raised by `RDOUT` with `i >= OUT_MAX` (R56). Safe. -/
  | outIndexOutOfRange (i : Nat)
  /-- Raised by a write to the OUT space (R56). Safe. -/
  | outWrite (i : Nat)
  /-- Raised by `WRCSR` and `RDCSR` with `n >= 4` (R56). Safe. -/
  | noSuchCsr (n : Nat)
  deriving DecidableEq, Repr

end Sys2Proof.Machine
end

