-- ==== Sys2Proof/Machine/Flags.lean ====
section
/-! DEFINITION. The fields of the register STATUS (spec/10_state.md R27, R30) and the error codes
(spec/60_exceptions.md R141). The block has no other flag. -/

namespace Sys2Proof.Machine

/-- The field `ERR`, bits 3:0: the error kind of the last command (R27). -/
def statusErr (v : U32) : BitVec 4 := v.extractLsb' 0 4

/-- The field `FB`, bit 4: the last command was REV6 and took the fallback path (R27). -/
def statusFb (v : U32) : Bool := v.getLsbD 4

/-- The field `OP`, bits 15:8: bits 7:0 of the value last written to `CMD` (R27). -/
def statusOp (v : U32) : Byte := v.extractLsb' 8 8

/-- The reserved bits 7:5 (R27). -/
def statusReservedLow (v : U32) : BitVec 3 := v.extractLsb' 5 3

/-- The reserved bits 31:16 (R27). -/
def statusReservedHigh (v : U32) : BitVec 16 := v.extractLsb' 16 16

/-- A STATUS value from its three fields; the reserved bits are 0 (R27). -/
def packStatus (err : BitVec 4) (fb : Bool) (op : Byte) : U32 :=
  0#16 ++ op ++ 0#3 ++ BitVec.ofBool fb ++ err

/-- The code of an error kind in `STATUS.ERR` (R141). MalformedText has none (R143). -/
def errCode : ErrorKind → BitVec 4
  | .invalidAddress => 1#4
  | .malformedWireData => 2#4
  | .illegalCommand => 3#4

end Sys2Proof.Machine
end

