-- ==== Sys2Proof/Machine/Ops.lean ====
section
/-! DEFINITION. The named operations over the buffers, the type set and the registers, and the completion
of a command: spec/60_exceptions.md R145 (success) and R146 (failure, the block's counterpart of taking an
exception). There is no return from an error (R150): the next completion overwrites STATUS. -/

namespace Sys2Proof.Machine

/-! ## Buffers -/

/-- One byte of a buffer (R41, R42). -/
def Memory.read : Memory → Nat → Byte
  | [], _ => unlistedByte
  | c :: m, i => if c.1 = i then c.2 else Memory.read m i

/-- A buffer without its cell at address `i`, if it has one. -/
def Memory.erase (m : Memory) (i : Nat) : Memory := m.filter (fun c => decide (c.1 ≠ i))

/-- A cell put in its place by address. -/
def Memory.insert (i : Nat) (b : Byte) : Memory → Memory
  | [] => [(i, b)]
  | c :: m => if i < c.1 then (i, b) :: c :: m else c :: Memory.insert i b m

/-- A byte stored in a buffer (R41, R42); storing what an unlisted address reads as removes the cell. -/
def Memory.write (m : Memory) (i : Nat) (b : Byte) : Memory :=
  if b = unlistedByte then m.erase i else Memory.insert i b (m.erase i)

/-- `MemRead(S:a, n)` (R41): the `n` consecutive bytes from address `a`. -/
def Memory.readRange (m : Memory) (a n : Nat) : Bytes := (List.range n).map (fun k => Memory.read m (a + k))

/-- `MemWrite(S:a, n, v)` (R41): the bytes of `v` stored at the consecutive addresses from `a` on. -/
def Memory.writeRange (m : Memory) (a : Nat) : Bytes → Memory
  | [] => m
  | b :: v => Memory.writeRange (m.write a b) (a + 1) v

/-- The buffer that holds the byte string from address `i` on and 0x00 everywhere else (R145). -/
def Memory.ofBytesFrom : Nat → Bytes → Memory
  | _, [] => []
  | i, b :: r => if b = unlistedByte then Memory.ofBytesFrom (i + 1) r else (i, b) :: Memory.ofBytesFrom (i + 1) r

/-- The buffer that holds the byte string from address 0 on and 0x00 beyond it (R145). -/
def Memory.ofBytes (r : Bytes) : Memory := Memory.ofBytesFrom 0 r

/-! ## Type sets -/

/-- One cell of TSET (R24). -/
def TypeSet.test (S : TypeSet) (c : U16) : Bool := decide (c ∈ S)

/-- A code put in its place. -/
def TypeSet.insert (c : U16) : TypeSet → TypeSet
  | [] => [c]
  | d :: S => if c.toNat < d.toNat then c :: d :: S else d :: TypeSet.insert c S

/-- `TSET[c] <- v` (R42, R53: a plain store). -/
def TypeSet.write (S : TypeSet) (c : U16) (v : Bool) : TypeSet :=
  let rest := S.filter (fun d => decide (d ≠ c))
  if v then TypeSet.insert c rest else rest

/-! ## Register and buffer updates of the state -/

/-- The state with another input buffer. -/
def State.setInBuf (s : State) (m : Memory) : State := { s with inBuf := m }

/-- The state with another `IN_LEN`. -/
def State.setInLen (s : State) (v : U32) : State := { s with inLen := v }

/-- What `OUT_LEN` holds for the result string `r`: `len(r)` (R145), a free value if 32 bits cannot hold it
(log entry 6). -/
def resultLength (r : Bytes) : U32 :=
  if r.length < 2 ^ 32 then BitVec.ofNat 32 r.length else Config.overlongLength r

/-- The state with the result string `r`: `OUT_LEN <- len(r)`, OUT holding `r` and 0x00 beyond it (R145). -/
def State.setResult (s : State) (r : Bytes) : State :=
  { s with outBuf := Memory.ofBytes r, outLen := resultLength r }

/-- The state with another type set. -/
def State.setTset (s : State) (S : TypeSet) : State := { s with tset := S }

/-- The state with another STATUS. -/
def State.setStatus (s : State) (v : U32) : State := { s with status := v }

/-- The state with other pending transactions. -/
def State.setPending (s : State) (l : List HostTxn) : State := { s with pending := l }

/-- The state with another reply. -/
def State.setReply (s : State) (r : Reply) : State := { s with reply := r }

/-- A read of a control and status register (R42): `CMD` reads 0, and a number of 4 or more is none. -/
def readCsr (s : State) (n : Nat) : Option U32 :=
  match n with
  | 0 => some 0#32
  | 1 => some s.status
  | 2 => some s.inLen
  | 3 => some s.outLen
  | _ => none

/-- A write of `IN_LEN` (R28): a value above `IN_MAX` is ignored. -/
def writeInLen (inMax : Nat) (v : U32) (s : State) : State :=
  if v.toNat ≤ inMax then s.setInLen v else s

/-! ## Completion -/

/-- Successful completion (R145) of the command whose word has low byte `op`. -/
def completeOk (op : Byte) (fb : Bool) (r : CommandValue) (s : State) : State :=
  match r with
  | .bytes r => (s.setResult r).setStatus (packStatus 0#4 fb op)
  | .typeSet S => ((s.setTset S).setResult []).setStatus (packStatus 0#4 fb op)

/-- Failed completion (R146) of the command whose word has low byte `op`: no result, TSET unchanged. -/
def completeError (op : Byte) (e : ErrorKind) (s : State) : State :=
  (s.setResult []).setStatus (packStatus (errCode e) false op)

/-- Completion of a command whose pseudocode yielded `o` (R67: R145 on `Ok`, R146 on a raised error). -/
def complete (op : Byte) (fb : Bool) (o : CommandOutcome) (s : State) : State :=
  match o with
  | .ok r => completeOk op fb r s
  | .error e => completeError op e s

end Sys2Proof.Machine
end

