-- ==== Sys2Proof/Machine/Operands.lean ====
section
/-! DEFINITION. The implicit operands of a command (spec/10_state.md R20): the operand string and the type
set. No command names an operand (spec/30_encoding.md R61). -/

namespace Sys2Proof.Machine

/-- The operand string `IN[0 .. IN_LEN-1]` (R22, R80). Bytes at and beyond `IN_LEN` are kept but ignored. -/
def operandString (s : State) : Bytes := s.inBuf.readRange 0 s.inLen.toNat

/-- The type set of a command (R121): the codes whose cell is 1, as they stand when it starts. -/
def operandSet (s : State) : TypeSet := s.tset

/-- The result string `OUT[0 .. OUT_LEN-1]` (R23). -/
def resultString (s : State) : Bytes := s.outBuf.readRange 0 s.outLen.toNat

end Sys2Proof.Machine
end

