-- ==== Sys2Proof/Machine/Text.lean ====
section
/-! DEFINITION. The string primitives of spec/00_scope.md R13 and R15, all total. -/

namespace Sys2Proof.Machine

/-- The bytes of a text in double quotes: one ASCII byte a character, in reading order (R13). -/
def ascii (t : String) : Bytes := t.toList.map (fun c => BitVec.ofNat 8 c.toNat)

/-- The byte `':'` (R13). -/
def colon : Byte := 0x3A#8

/-- The byte `'.'` (R13). -/
def dot : Byte := 0x2E#8

/-- The byte `'0'` (R13). -/
def zeroDigit : Byte := 0x30#8

/-- `split(s, c)` (R15): cut `s` at every byte equal to `c`; the pieces in order, at least one. -/
def split (c : Byte) : Bytes → List Bytes
  | [] => [[]]
  | b :: s =>
    if b = c then [] :: split c s
    else match split c s with
      | [] => [[b]]
      | t :: ts => (b :: t) :: ts

/-- `join(L, sep)` (R15). -/
def join (sep : Bytes) : List Bytes → Bytes
  | [] => []
  | [t] => t
  | t :: u :: ts => t ++ sep ++ join sep (u :: ts)

/-- `chars(s)` (R15): the one-byte strings of `s`, in order. -/
def chars (s : Bytes) : List Bytes := s.map (fun b => [b])

/-- `lpad4(t)` (R15): at least four bytes, padded on the left with `'0'`. -/
def lpad4 (t : Bytes) : Bytes :=
  if 4 ≤ t.length then t else List.replicate (4 - t.length) zeroDigit ++ t

/-- `IsDigit(b)` (R15). -/
def isDigit (b : Byte) : Bool := decide (0x30 ≤ b.toNat ∧ b.toNat ≤ 0x39)

/-- `IsHexDigit(b)` (R15): a digit of either case. -/
def isHexDigit (b : Byte) : Bool :=
  isDigit b || decide (0x41 ≤ b.toNat ∧ b.toNat ≤ 0x46) || decide (0x61 ≤ b.toNat ∧ b.toNat ≤ 0x66)

/-- `digitval(b)` (R15), for a hex digit `b`. -/
def digitval (b : Byte) : Nat :=
  if b.toNat ≤ 0x39 then b.toNat - 0x30
  else if b.toNat ≤ 0x46 then b.toNat - 0x41 + 10
  else b.toNat - 0x61 + 10

/-- `hexval(t)` (R15): a nat, most significant digit first. -/
def hexval (t : Bytes) : Nat := t.foldl (fun v b => 16 * v + digitval b) 0

/-- `decval(t)` (R15): a nat, most significant digit first. -/
def decval (t : Bytes) : Nat := t.foldl (fun v b => 10 * v + digitval b) 0

/-- The lowercase hex digit of a 4-bit value (R15). -/
def hexDigit (d : BitVec 4) : Byte :=
  if d.toNat < 10 then BitVec.ofNat 8 (0x30 + d.toNat) else BitVec.ofNat 8 (0x61 + (d.toNat - 10))

/-- `hex4(v)` (R15): the four lowercase hex digits of a u16, most significant first. -/
def hex4 (v : U16) : Bytes :=
  [hexDigit (v.extractLsb' 12 4), hexDigit (v.extractLsb' 8 4),
   hexDigit (v.extractLsb' 4 4), hexDigit (v.extractLsb' 0 4)]

/-- A string without its leading `'0'` bytes, but never shorter than one byte (R15, in `hexmin`). -/
def dropLeadingZeros : Bytes → Bytes
  | [] => []
  | [b] => [b]
  | b :: c :: t => if b = zeroDigit then dropLeadingZeros (c :: t) else b :: c :: t

/-- `hexmin(v)` (R15): `hex4(v)` without leading zeros. -/
def hexmin (v : U16) : Bytes := dropLeadingZeros (hex4 v)

end Sys2Proof.Machine
end

