-- ==== Sys2Proof/Machine/Address.lean ====
section
/-! DEFINITION. The address engine: the literal grammar and the commands EXPAND, EXPANDI, CONTRACT, REV4
and REV6 (spec/40_address_ops.md R82 to R110). -/

namespace Sys2Proof.Machine

/-! ## The literal grammar -/

/-- `IsH16(t)` (R82): one to four hex digits of either case. -/
def isH16 (t : Bytes) : Bool := decide (1 ≤ t.length ∧ t.length ≤ 4) && t.all isHexDigit

/-- The value of a hextet token (R82), a u16: four hex digits never exceed 16 bits (R89). -/
def hextetVal (t : Bytes) : U16 := BitVec.ofNat 16 (hexval t)

/-- `IsDecOctet(u)` (R83): one to three digits, no leading zero, at most 255. -/
def isDecOctet (u : Bytes) : Bool :=
  decide (1 ≤ u.length ∧ u.length ≤ 3) && u.all isDigit &&
    !(decide (1 < u.length) && decide (u.head? = some zeroDigit)) && decide (decval u ≤ 255)

/-- The value of an octet token, a byte (R83). -/
def octetVal (u : Bytes) : Byte := BitVec.ofNat 8 (decval u)

/-- `ParseIPv4(t)` (R83): the four bytes of a dotted quad, or none for `Invalid`. -/
def parseIPv4 (t : Bytes) : Option (Byte × Byte × Byte × Byte) :=
  match split dot t with
  | [a, b, c, d] =>
    if isDecOctet a && isDecOctet b && isDecOctet c && isDecOctet d then
      some (octetVal a, octetVal b, octetVal c, octetVal d)
    else none
  | _ => none

/-- The last two hextets an embedded IPv4 literal supplies (R87). -/
def embeddedHextets (q : Byte × Byte × Byte × Byte) : List U16 :=
  [q.1 ++ q.2.1, q.2.2.1 ++ q.2.2.2]

/-- The loop of `Groups` over the tokens (R84); only the last token may be an IPv4 literal. -/
def groupTokens (allowV4 : Bool) : List Bytes → Option (List U16)
  | [] => some []
  | [t] =>
    if isH16 t then some [hextetVal t]
    else if allowV4 then (parseIPv4 t).map embeddedHextets
    else none
  | t :: u :: ts =>
    if isH16 t then (groupTokens allowV4 (u :: ts)).map (fun G => hextetVal t :: G) else none

/-- `Groups(t, allow_v4)` (R84), none for `Invalid`. -/
def groups (t : Bytes) (allowV4 : Bool) : Option (List U16) :=
  if t = [] then some [] else groupTokens allowV4 (split colon t)

/-- The list `D` of R85: the places, counted from `p`, where a `':'` is followed by a `':'`. -/
def doubleColons (p : Nat) : Bytes → List Nat
  | [] => []
  | [_] => []
  | a :: b :: s =>
    if a = colon ∧ b = colon then p :: doubleColons (p + 1) (b :: s) else doubleColons (p + 1) (b :: s)

/-- `ParseIPv6(s)` (R85): the eight hextets of a literal, the leftmost first, or none for `Invalid`. -/
def parseIPv6 (s : Bytes) : Option (List U16) :=
  if s = [] then none
  else match doubleColons 0 s with
    | [] =>
      match groups s true with
      | some G => if G.length = hextets then some G else none
      | none => none
    | [p] =>
      match groups (s.take p) false, groups (s.drop (p + 2)) true with
      | some L, some R =>
        if hextets - 1 < L.length + R.length then none
        else some (L ++ List.replicate (hextets - L.length - R.length) 0#16 ++ R)
      | _, _ => none
    | _ :: _ :: _ => none

/-- `RenderFull(h)` (R88). -/
def renderFull (h : List U16) : Bytes := join [colon] (h.map hex4)

/-- The 16-byte form of an address (R45): hextet `k` is bytes `2k` (high) and `2k+1` (low). No port of the
block carries it. -/
def addressBytes (h : List U16) : Bytes :=
  h.flatMap (fun v => [v.extractLsb' 8 8, v.extractLsb' 0 8])

/-! ## EXPAND -/

/-- The pseudocode of EXPAND (R90). -/
def expandFn (s : Bytes) : CommandOutcome :=
  match parseIPv6 s with
  | some h => .ok (.bytes (renderFull h))
  | none => .error .invalidAddress

/-- EXPAND (R90). -/
def execExpand (s : State) : Host.Outcome State Fault Refusal :=
  .next (complete (opcodeOf .expand) false (expandFn (operandString s)) s)

/-! ## EXPANDI -/

/-- The result string of EXPANDI (R92): each token padded on its own, none dropped, cut or checked. -/
def expandIncomplete (s : Bytes) : Bytes := join [colon] ((split colon s).map lpad4)

/-- The pseudocode of EXPANDI (R92), which raises no error. -/
def expandiFn (s : Bytes) : CommandOutcome := .ok (.bytes (expandIncomplete s))

/-- EXPANDI (R92). -/
def execExpandi (s : State) : Host.Outcome State Fault Refusal :=
  .next (complete (opcodeOf .expandi) false (expandiFn (operandString s)) s)

/-! ## CONTRACT -/

/-- The loop of `LongestZeroRun` (R93) from index `i` on, over which hextets are zero; `fuel` bounds its
turns, and every turn moves `i` forward. A later run of equal length wins. -/
def longestRunFrom (zero : List Bool) : Nat → Nat → Option Nat × Nat → Option Nat × Nat
  | 0, _, best => best
  | fuel + 1, i, best =>
    if i < zero.length then
      if zero.getD i false then
        let n := ((zero.drop i).takeWhile id).length
        longestRunFrom zero fuel (i + n) (if best.2 ≤ n then (some i, n) else best)
      else longestRunFrom zero fuel (i + 1) best
    else best

/-- `LongestZeroRun(h)` (R93): the start and length of the run CONTRACT replaces, (none, 0) if no hextet
is zero. -/
def longestZeroRun (h : List U16) : Option Nat × Nat :=
  longestRunFrom (h.map (fun v => decide (v = 0#16))) h.length 0 (none, 0)

/-- Hextets in lowercase hex without leading zeros, joined by single colons (R94). -/
def renderMin (h : List U16) : Bytes := join [colon] (h.map hexmin)

/-- The text CONTRACT gives for eight hextets (R94); with no zero hextet it has no `::` (R95). -/
def renderShort (h : List U16) : Bytes :=
  match longestZeroRun h with
  | (some st, n) => renderMin (h.take st) ++ [colon, colon] ++ renderMin (h.drop (st + n))
  | (none, _) => renderMin h

/-- The pseudocode of CONTRACT (R94). -/
def contractFn (s : Bytes) : CommandOutcome :=
  match parseIPv6 s with
  | some h => .ok (.bytes (renderShort h))
  | none => .error .invalidAddress

/-- CONTRACT (R94). -/
def execContract (s : State) : Host.Outcome State Fault Refusal :=
  .next (complete (opcodeOf .contract) false (contractFn (operandString s)) s)

/-! ## REV4 -/

/-- The suffix `".in-addr.arpa."` (R100). -/
def inAddrArpa : Bytes := ascii ".in-addr.arpa."

/-- The pseudocode of REV4 (R100): a valid literal has exactly four tokens, moved as text. -/
def rev4Fn (s : Bytes) : CommandOutcome :=
  match parseIPv4 s with
  | some _ => .ok (.bytes (join [dot] (split dot s).reverse ++ inAddrArpa))
  | none => .error .invalidAddress

/-- REV4 (R100). -/
def execRev4 (s : State) : Host.Outcome State Fault Refusal :=
  .next (complete (opcodeOf .rev4) false (rev4Fn (operandString s)) s)

/-! ## REV6 -/

/-- The suffix `".ip6.arpa."` (R105). -/
def ip6Arpa : Bytes := ascii ".ip6.arpa."

/-- The last three lines of REV6's pseudocode (R105): strip the colons, reverse byte by byte, join with dots,
append the suffix. -/
def nibbleName (e : Bytes) : Bytes :=
  join [dot] (chars (e.filter (fun b => decide (b ≠ colon))).reverse) ++ ip6Arpa

/-- The fallback bit of REV6 (R105, R108): the operand is no valid IPv6 literal. -/
def rev6Fallback (s : Bytes) : Bool := (parseIPv6 s).isNone

/-- The string REV6 reverses (R105): the expansion, or on the fallback path the padded fragment (R108). -/
def rev6Expansion (s : Bytes) : Bytes :=
  match parseIPv6 s with
  | some h => renderFull h
  | none => expandIncomplete s

/-- The pseudocode of REV6 (R105), which raises no error. -/
def rev6Fn (s : Bytes) : CommandOutcome := .ok (.bytes (nibbleName (rev6Expansion s)))

/-- REV6 (R105). -/
def execRev6 (s : State) : Host.Outcome State Fault Refusal :=
  .next (complete (opcodeOf .rev6) (rev6Fallback (operandString s)) (rev6Fn (operandString s)) s)

end Sys2Proof.Machine
end

