-- ==== Sys2Proof/Machine/Bitmap.lean ====
section
/-! DEFINITION. The bitmap engine: the commands TBMENC, TBMDEC and TSETCLR (spec/41_type_bitmap_ops.md
R121 to R131) over the windowed wire form (R122, spec/20_memory.md R44). -/

namespace Sys2Proof.Machine

/-- The window number of a code, its high byte (R44). -/
def windowOf (c : U16) : Byte := c.extractLsb' 8 8

/-- The local bit of a code, its low byte (R44). -/
def localBit (c : U16) : Byte := c.extractLsb' 0 8

/-- The mask of local bit `i` inside its bitmap byte (R44, R12): most significant bit first. -/
def bitMask (i : Nat) : Byte := 0x80#8 >>> (i % 8)

/-! ## TBMENC -/

/-- The set `Lw` of R124: the local bits of window `w`. -/
def localBits (S : TypeSet) (w : Byte) : List Nat :=
  (S.filter (fun c => decide (windowOf c = w))).map (fun c => (localBit c).toNat)

/-- The greatest element of a list of local bits, `highestLocalBit` (R124). -/
def highestBit (L : List Nat) : Nat := L.foldl max 0

/-- The `n` bitmap bytes with the given local bits set (R124). -/
def bitmapBytes (n : Nat) (L : List Nat) : Bytes :=
  L.foldl (fun bm i => bm.modify (i / 8) (fun b => b ||| bitMask i)) (List.replicate n 0x00#8)

/-- One window of the wire form (R122), empty if no code of the set lies in it (R124). -/
def encodeWindow (S : TypeSet) (w : Byte) : Bytes :=
  match localBits S w with
  | [] => []
  | i :: L =>
    let n := highestBit (i :: L) / 8 + 1
    w :: BitVec.ofNat 8 n :: bitmapBytes n (i :: L)

/-- The wire form of a type set (R124): its windows, ascending by window number. -/
def encodeSet (S : TypeSet) : Bytes := (List.range 256).flatMap (fun w => encodeWindow S (BitVec.ofNat 8 w))

/-- The pseudocode of TBMENC (R124), which raises no error. -/
def tbmencFn (S : TypeSet) : CommandOutcome := .ok (.bytes (encodeSet S))

/-- TBMENC (R124). -/
def execTbmenc (s : State) : Host.Outcome State Fault Refusal :=
  .next (complete (opcodeOf .tbmenc) false (tbmencFn (operandSet s)) s)

/-! ## TBMDEC -/

/-- The code of bit `q` of bitmap byte `k` in window `w` (R126): `256*w + 8*k + q`. -/
def codeAt (w : Byte) (k q : Nat) : U16 := BitVec.ofNat 16 (256 * w.toNat + 8 * k + q)

/-- The codes one bitmap byte contributes (R126), ascending. -/
def byteCodes (w : Byte) (k : Nat) (b : Byte) : List U16 :=
  ((List.range 8).filter (fun q => decide (b &&& bitMask q ≠ 0x00#8))).map (codeAt w k)

/-- The codes the bitmap bytes from index `k` on contribute (R126), ascending. -/
def bitmapCodes (w : Byte) : Nat → Bytes → List U16
  | _, [] => []
  | k, b :: bm => byteCodes w k b ++ bitmapCodes w (k + 1) bm

/-- The loop of TBMDEC (R126) over what is left of the operand, or none for MalformedWireData. Each turn
takes at least one byte, so `fuel` as large as the operand is never short. Codes come out ascending, since
the windows are strictly ascending. -/
def decodeWindows : Nat → Option Byte → Bytes → Option TypeSet
  | _, _, [] => some []
  | 0, _, _ :: _ => none
  | _ + 1, _, [_] => none
  | fuel + 1, last, w :: n :: rest =>
    if last.any (fun l => decide (w.toNat ≤ l.toNat)) then none
    else if n.toNat = 0 ∨ winMaxBytes < n.toNat then none
    else if rest.length < n.toNat then none
    else (decodeWindows fuel (some w) (rest.drop n.toNat)).map
      (fun S => bitmapCodes w 0 (rest.take n.toNat) ++ S)

/-- The type set a wire form denotes, none if it is malformed (R126). -/
def decodeSet (b : Bytes) : Option TypeSet := decodeWindows b.length none b

/-- The pseudocode of TBMDEC (R126). -/
def tbmdecFn (b : Bytes) : CommandOutcome :=
  match decodeSet b with
  | some S => .ok (.typeSet S)
  | none => .error .malformedWireData

/-- TBMDEC (R126). -/
def execTbmdec (s : State) : Host.Outcome State Fault Refusal :=
  .next (complete (opcodeOf .tbmdec) false (tbmdecFn (operandString s)) s)

/-! ## TSETCLR -/

/-- The pseudocode of TSETCLR (R130): the empty set. -/
def tsetclrFn : CommandOutcome := .ok (.typeSet [])

/-- TSETCLR (R130). -/
def execTsetclr (s : State) : Host.Outcome State Fault Refusal :=
  .next (complete (opcodeOf .tsetclr) false tsetclrFn s)

end Sys2Proof.Machine
end

