-- ==== Sys2Proof/Machine/Dispatch.lean ====
section
/-! DEFINITION. The meaning of each command: one arm per row of spec/opcode_table.json. -/

namespace Sys2Proof.Machine

def exec (i : Instr) (s : State) : Host.Outcome State Fault Refusal :=
  match i with
  | .expand => Sys2Proof.Machine.execExpand s
  | .expandi => Sys2Proof.Machine.execExpandi s
  | .contract => Sys2Proof.Machine.execContract s
  | .rev4 => Sys2Proof.Machine.execRev4 s
  | .rev6 => Sys2Proof.Machine.execRev6 s
  | .tbmenc => Sys2Proof.Machine.execTbmenc s
  | .tbmdec => Sys2Proof.Machine.execTbmdec s
  | .tsetclr => Sys2Proof.Machine.execTsetclr s

end Sys2Proof.Machine
end

