-- ==== Sys2Proof/Machine/Port.lean ====
section
/-! DEFINITION. The host port: what each host transaction does (spec/20_memory.md R42, R56). -/

namespace Sys2Proof.Machine

/-- The effect of `WRCSR(0, v)` (R67, R26): decode the word and run the command to completion; an illegal
word completes with IllegalCommand before any operand is looked at (R63, R147). -/
def runCommand (v : U32) (s : State) : Host.Outcome State Fault Refusal :=
  match decodeWord v with
  | .ok i => exec i s
  | .error _ => .next (completeError (opcodeField v) .illegalCommand s)

/-- `WRCSR(n, v)` (R42): writes of STATUS and OUT_LEN are ignored. -/
def writeCsr (cfg : Config) (n : Nat) (v : U32) (s : State) : Host.Outcome State Fault Refusal :=
  match n with
  | 0 => runCommand v s
  | 1 => .next s
  | 2 => .next (writeInLen cfg.inMax v s)
  | 3 => .next s
  | n => .refused (.noSuchCsr n)

/-- `RESET` (R160): every piece of state at its reset value. The host's further transactions are input, not
state, and still come (log entry 10). -/
def resetBlock (s : State) : State := State.reset.setPending s.pending

/-- One host transaction (R42) on a state that no longer counts it as pending. A transaction that returns
nothing leaves `Reply.nothing`. -/
def transact (cfg : Config) (t : HostTxn) (s : State) : Host.Outcome State Fault Refusal :=
  match t with
  | .wrin i b =>
    if i < cfg.inMax then .next ((s.setInBuf (s.inBuf.write i b)).setReply .nothing)
    else .refused (.inIndexOutOfRange i)
  | .rdin i =>
    if i < cfg.inMax then .next (s.setReply (.byte (s.inBuf.read i)))
    else .refused (.inIndexOutOfRange i)
  | .rdout i =>
    if i < cfg.outMax then .next (s.setReply (.byte (s.outBuf.read i)))
    else .refused (.outIndexOutOfRange i)
  | .wrout i _ => .refused (.outWrite i)
  | .wrtset c v => .next ((s.setTset (s.tset.write c v)).setReply .nothing)
  | .rdtset c => .next (s.setReply (.bit (s.tset.test c)))
  | .wrcsr n v => writeCsr cfg n v (s.setReply .nothing)
  | .rdcsr n =>
    match readCsr s n with
    | some v => .next (s.setReply (.word v))
    | none => .refused (.noSuchCsr n)
  | .reset => .next (resetBlock s)

/-- The host writes the command word to `csr[CMD]` next, before what it had pending. -/
def issueWord (v : U32) (s : State) : State := s.setPending (.wrcsr 0 v :: s.pending)

/-- The first pending host transaction performed; with none pending the block does nothing and holds its
state (R40, R156, R165; log entry 1). -/
def stepOnce (cfg : Config) (s : State) : Host.Outcome State Fault Refusal :=
  match s.pending with
  | [] => .next s
  | t :: rest => transact cfg t (s.setPending rest)

end Sys2Proof.Machine
end

