-- ==== Sys2Proof/Machine/Step.lean ====
section
/-! DEFINITION. The step of the machine, one host transaction (spec/20_memory.md R40), and the host's way to
place a command word as the next one to run. -/

namespace Sys2Proof.Machine

/-- One step of a block with the capacities of `cfg`. -/
def stepWith (cfg : Config) (s : State) : Host.Outcome State Fault Refusal := stepOnce cfg s

/-- One step of a block with the default capacities of R9. -/
def step (s : State) : Host.Outcome State Fault Refusal := stepWith Config.default s

/-- The state in which the next transaction writes the table word `w` of `nbits` bits to `csr[CMD]`
(R21: commands reach the block as host writes to `csr[CMD]`; log entry 3). -/
def State.withFetchWord (s : State) (nbits w : Nat) : State :=
  issueWord (BitVec.ofNat 32 (w % 2 ^ nbits)) s

end Sys2Proof.Machine
end

