-- ==== Sys2Proof/Machine/Grammar.lean ====
section
/-! DEFINITION. The texts and byte strings the commands accept, said as grammars and not as procedures: what
a literal is (spec/40_address_ops.md R82 to R87) and what a windowed bitmap is (spec/41_type_bitmap_ops.md
R122, R126). Claims compare the machine's parsers with them. -/

namespace Sys2Proof.Machine

/-! ## Address literals -/

/-- `t` is four octet tokens joined by dots, and `q` their values (R83). -/
def QuadText (t : Bytes) (q : Byte × Byte × Byte × Byte) : Prop :=
  ∃ a b c d, isDecOctet a = true ∧ isDecOctet b = true ∧ isDecOctet c = true ∧ isDecOctet d = true ∧
    t = join [dot] [a, b, c, d] ∧ q = (octetVal a, octetVal b, octetVal c, octetVal d)

/-- `t` is one or more hextet tokens joined by colons, and `G` their values (R82, R84). -/
def HextetText (t : Bytes) (G : List U16) : Prop :=
  ∃ T : List Bytes, T ≠ [] ∧ (∀ u ∈ T, isH16 u = true) ∧ t = join [colon] T ∧ G = T.map hextetVal

/-- `t` is hextet tokens, if any, and then a dotted quad, joined by colons, and `G` the values (R84, R87). -/
def HextetQuadText (t : Bytes) (G : List U16) : Prop :=
  ∃ (T : List Bytes) (u : Bytes) (q : Byte × Byte × Byte × Byte), (∀ v ∈ T, isH16 v = true) ∧ QuadText u q ∧
    t = join [colon] (T ++ [u]) ∧ G = T.map hextetVal ++ embeddedHextets q

/-- One side of a `::`, or a whole literal without `::` (R84). -/
def GroupsText (allowV4 : Bool) (t : Bytes) (G : List U16) : Prop :=
  (t = [] ∧ G = []) ∨ HextetText t G ∨ (allowV4 = true ∧ HextetQuadText t G)

/-- `s` is an IPv6 literal with the hextets `h` (R85): eight groups, or fewer with one `::` that stands for
the zero hextets, at least one, that are missing. -/
def LiteralText (s : Bytes) (h : List U16) : Prop :=
  (s ≠ [] ∧ GroupsText true s h ∧ h.length = hextets) ∨
  (∃ l r L R, s = l ++ [colon, colon] ++ r ∧ GroupsText false l L ∧ GroupsText true r R ∧
    L.length + R.length < hextets ∧ h = L ++ List.replicate (hextets - L.length - R.length) 0#16 ++ R)

/-- The lower-case form of a hex digit; any other byte is itself (R90: "unchanged except for case"). -/
def lowerHex (b : Byte) : Byte := if 0x41 ≤ b.toNat ∧ b.toNat ≤ 0x46 then b + 0x20#8 else b

/-! ## Zero runs -/

/-- The hextets `a .. a+m-1` exist and are all zero (R93). -/
def ZeroRange (h : List U16) (a m : Nat) : Prop :=
  a + m ≤ h.length ∧ ∀ k, a ≤ k → k < a + m → h[k]? = some 0#16

/-! ## Windowed bitmaps -/

/-- The byte string of a list of windows, each a window number and its bitmap (R122). -/
def wireBytes (W : List (Byte × Bytes)) : Bytes :=
  W.flatMap (fun w => w.1 :: BitVec.ofNat 8 w.2.length :: w.2)

/-- The windows TBMDEC accepts (R126): numbers strictly increasing, each bitmap of 1 to 32 bytes. -/
def WindowsOk (W : List (Byte × Bytes)) : Prop :=
  W.Pairwise (fun a b => a.1.toNat < b.1.toNat) ∧ ∀ w ∈ W, 1 ≤ w.2.length ∧ w.2.length ≤ winMaxBytes

/-- The windows the encoder emits (R122, R125): besides, the last bitmap byte of each is not zero. -/
def WindowsMinimal (W : List (Byte × Bytes)) : Prop :=
  ∀ w ∈ W, ∃ b, w.2.getLast? = some b ∧ b ≠ 0x00#8

/-- Some window has the code's number and the code's local bit set in its bitmap (R44, R122). -/
def WindowsHave (W : List (Byte × Bytes)) (c : U16) : Prop :=
  ∃ w ∈ W, w.1 = windowOf c ∧
    ∃ b, w.2[(localBit c).toNat / 8]? = some b ∧ b &&& bitMask (localBit c).toNat ≠ 0x00#8

end Sys2Proof.Machine
end

