-- ==== Sys2Proof/Machine/Instances.lean ====
section
/-! DEFINITION. A system of several instances of the block (spec/60_exceptions.md R154): independent states,
of which one performs a transaction at a time. Whether instances may have different capacities the spec does not
say: here each has its own (DESIGN CHOICE, log entry 21). -/

namespace Sys2Proof.Machine

/-- One step of instance `k` of a system whose instance `j` has the capacities `cfgs j`: none if there is no such instance, or if its transaction stops
with a fault or a refusal. No other instance changes (R154). -/
def stepInstance (cfgs : Nat → Config) (k : Nat) (blocks : List State) : Option (List State) :=
  match blocks[k]? with
  | none => none
  | some s =>
    match stepWith (cfgs k) s with
    | .next s' => some (blocks.set k s')
    | .fault _ => none
    | .refused _ => none

end Sys2Proof.Machine
end

