-- ==== Sys2Proof/Machine/Outcomes.lean ====
section
/-! DEFINITION. What each command's pseudocode yields, gathered by command (spec/00_scope.md R17), for claims
about all of them. `exec` does not use it. -/

namespace Sys2Proof.Machine

/-- The outcome of a command's pseudocode on its operands (R17, R31). -/
def commandOutcome (i : Instr) (s : State) : CommandOutcome :=
  match i with
  | .expand => expandFn (operandString s)
  | .expandi => expandiFn (operandString s)
  | .contract => contractFn (operandString s)
  | .rev4 => rev4Fn (operandString s)
  | .rev6 => rev6Fn (operandString s)
  | .tbmenc => tbmencFn (operandSet s)
  | .tbmdec => tbmdecFn (operandString s)
  | .tsetclr => tsetclrFn

/-- The fallback bit of a command (R30, R145): 1 only for a REV6 that took the fallback path. -/
def commandFallback (i : Instr) (s : State) : Bool :=
  match i with
  | .rev6 => rev6Fallback (operandString s)
  | .expand | .expandi | .contract | .rev4 | .tbmenc | .tbmdec | .tsetclr => false

end Sys2Proof.Machine
end

