-- ==== Sys2Proof/Machine/Script.lean ====
section
/-! DEFINITION. Host scripts: the statements, pseudo-statements and text syntax of spec/30_encoding.md R65
and R66. No behaviour of the block rests on them. -/

namespace Sys2Proof.Machine

/-! ## Statements and their expansion -/

/-- A script statement: one transaction (R65) or one pseudo-statement (R66). -/
inductive Stmt where
  /-- A transaction written directly. -/
  | txn (t : HostTxn)
  /-- `expand`, `expandi`, ..., `tsetclr`. -/
  | command (i : Instr)
  /-- `load "text"` or `loadb b0 b1 ...`: the bytes of the operand. -/
  | load (b : Bytes)
  /-- `copyout`. -/
  | copyout
  /-- `tadd c`. -/
  | tadd (c : U16)
  /-- `tdel c`. -/
  | tdel (c : U16)
  /-- `expect out "text"` or `expect outb b0 ...`. -/
  | expectOut (r : Bytes)
  /-- `expect status v`. -/
  | expectStatus (v : U32)
  /-- `expect tset` with the listed codes. -/
  | expectTset (C : List U16)
  deriving DecidableEq, Repr

/-- What a run of a script gives: the final state, the script's encoding (R65), and whether every assertion
held. -/
structure ScriptRun where
  state : State
  encoding : List HostTxn
  holds : Bool
  deriving DecidableEq, Repr

/-- `wrin` of consecutive bytes from index `k` on (R66, in `load`). -/
def wrinFrom : Nat → Bytes → List HostTxn
  | _, [] => []
  | k, b :: r => .wrin k b :: wrinFrom (k + 1) r

/-- The expansion of `load` and `loadb` (R66): the bytes, then the length, of which a 32-bit write carries the low
32 bits (DESIGN CHOICE, log entry 14). -/
def loadTxns (b : Bytes) : List HostTxn := wrinFrom 0 b ++ [.wrcsr 2 (BitVec.ofNat 32 b.length)]

/-- The expansion of `copyout` in a state (R66): it depends on the result string read at run time. Where it is not
legal, `n > IN_MAX`, its `WRIN` past IN is refused (log entry 14). -/
def copyoutTxns (s : State) : List HostTxn :=
  .rdcsr 3 ::
    ((List.range s.outLen.toNat).flatMap (fun k => [.rdout k, .wrin k (s.outBuf.read k)])
      ++ [.wrcsr 2 s.outLen])

/-- The transactions a statement expands to in a state (R65, R66). The spec gives no order for the reads of
`expect out` and `expect tset`: ascending indices and ascending codes are a DESIGN CHOICE (log entry 14). -/
def Stmt.txns (s : State) : Stmt → List HostTxn
  | .txn t => [t]
  | .command i => [.wrcsr 0 (encode i)]
  | .load b => loadTxns b
  | .copyout => copyoutTxns s
  | .tadd c => [.wrtset c true]
  | .tdel c => [.wrtset c false]
  | .expectOut _ => .rdcsr 3 :: (List.range s.outLen.toNat).map (fun k => .rdout k)
  | .expectStatus _ => [.rdcsr 1]
  | .expectTset _ => (List.range tsetCells).map (fun c => .rdtset (BitVec.ofNat 16 c))

/-- What an assertion says its reads return (R66); none for a statement that asserts nothing. -/
def Stmt.expected : Stmt → Option (List Reply)
  | .expectOut r => some (.word (BitVec.ofNat 32 r.length) :: r.map .byte)
  | .expectStatus v => some [.word v]
  | .expectTset C => some ((List.range tsetCells).map (fun c => .bit (decide (BitVec.ofNat 16 c ∈ C))))
  | .txn _ | .command _ | .load _ | .copyout | .tadd _ | .tdel _ => none

/-- A list of transactions performed one after another (R51), with what each returned. -/
def runTxns (cfg : Config) : List HostTxn → State → Host.Outcome (State × List Reply) Fault Refusal
  | [], s => .next (s, [])
  | t :: ts, s =>
    match transact cfg t s with
    | .next s' =>
      match runTxns cfg ts s' with
      | .next (s'', rs) => .next (s'', s'.reply :: rs)
      | .fault f => .fault f
      | .refused r => .refused r
    | .fault f => .fault f
    | .refused r => .refused r

/-- A script run from a state (R65). What follows a failed `expect` the spec does not say: the run goes on with the
rest of the script, and `holds` is false (DESIGN CHOICE, log entry 14). A refused transaction ends the run (R56). -/
def runScript (cfg : Config) : List Stmt → State → Host.Outcome ScriptRun Fault Refusal
  | [], s => .next ⟨s, [], true⟩
  | st :: sts, s =>
    match runTxns cfg (st.txns s) s with
    | .next (s', rs) =>
      match runScript cfg sts s' with
      | .next r =>
        .next ⟨r.state, st.txns s ++ r.encoding, r.holds && st.expected.all (fun e => decide (e = rs))⟩
      | .fault f => .fault f
      | .refused r => .refused r
    | .fault f => .fault f
    | .refused r => .refused r

/-! ## The text syntax -/

/-- A token of a script line. -/
inductive Token where
  /-- A keyword, a register name or a number. -/
  | word (t : Bytes)
  /-- A text between double quotes. -/
  | quoted (t : Bytes)
  /-- A comma or a brace. -/
  | mark (b : Byte)
  deriving DecidableEq, Repr

/-- The byte `"`. -/
def quoteByte : Byte := 0x22#8

/-- The byte `#`, which starts a comment (R65). -/
def hashByte : Byte := 0x23#8

/-- The byte `,`. -/
def commaByte : Byte := 0x2C#8

/-- The opening brace of a code list. -/
def openByte : Byte := 0x7B#8

/-- The closing brace of a code list. -/
def closeByte : Byte := 0x7D#8

/-- White space inside a line: space, tab and carriage return. -/
def isBlank (b : Byte) : Bool := b = 0x20#8 || b = 0x09#8 || b = 0x0D#8

/-- A comma or a brace. -/
def isMark (b : Byte) : Bool := b = commaByte || b = openByte || b = closeByte

/-- What the lexer is inside of: nothing, a word or a quoted text, with its bytes so far, last first. -/
inductive LexMode where
  | between
  | inWord (acc : Bytes)
  | inQuote (acc : Bytes)
  deriving DecidableEq, Repr

/-- The tokens of one line; a `#` outside quotes ends it (R65). That a `#` inside
quotes is text, that an open quote is refused, and that no blank need stand between a word and a quoted text
(`load"x"`), a comma or a brace, is a DESIGN CHOICE (log entry 14). -/
def lexLine : LexMode → Bytes → Option (List Token)
  | .between, [] => some []
  | .inWord acc, [] => some [.word acc.reverse]
  | .inQuote _, [] => none
  | .between, b :: r =>
    if b = hashByte then some []
    else if isBlank b then lexLine .between r
    else if b = quoteByte then lexLine (.inQuote []) r
    else if isMark b then (lexLine .between r).map (fun ts => .mark b :: ts)
    else lexLine (.inWord [b]) r
  | .inWord acc, b :: r =>
    if b = hashByte then some [.word acc.reverse]
    else if isBlank b then (lexLine .between r).map (fun ts => .word acc.reverse :: ts)
    else if b = quoteByte then (lexLine (.inQuote []) r).map (fun ts => .word acc.reverse :: ts)
    else if isMark b then (lexLine .between r).map (fun ts => .word acc.reverse :: .mark b :: ts)
    else lexLine (.inWord (b :: acc)) r
  | .inQuote acc, b :: r =>
    if b = quoteByte then (lexLine .between r).map (fun ts => .quoted acc.reverse :: ts)
    else lexLine (.inQuote (b :: acc)) r

/-- A number: decimal, or hexadecimal after `0x` (R65), of any number of digits, hexadecimal ones of either case
(DESIGN CHOICE, log entry 14). -/
def parseNumber (t : Bytes) : Option Nat :=
  match t with
  | 0x30#8 :: 0x78#8 :: d :: ds => if (d :: ds).all isHexDigit then some (hexval (d :: ds)) else none
  | d :: ds => if (d :: ds).all isDigit then some (decval (d :: ds)) else none
  | [] => none

/-- A number below a bound. -/
def parseBelow (bound : Nat) (t : Bytes) : Option Nat :=
  (parseNumber t).bind (fun n => if n < bound then some n else none)

/-- A byte operand. -/
def parseByte (t : Bytes) : Option Byte := (parseBelow 256 t).map (BitVec.ofNat 8)

/-- A type code operand. -/
def parseCode (t : Bytes) : Option U16 := (parseBelow tsetCells t).map (BitVec.ofNat 16)

/-- A 32-bit operand. -/
def parseWord (t : Bytes) : Option U32 := (parseBelow (2 ^ csrWidth) t).map (BitVec.ofNat 32)

/-- A bit operand. -/
def parseBit (t : Bytes) : Option Bool := (parseBelow 2 t).map (fun n => decide (n = 1))

/-- A register number, or the register's name (R65). -/
def parseCsr (t : Bytes) : Option Nat :=
  if t = ascii "CMD" then some 0
  else if t = ascii "STATUS" then some 1
  else if t = ascii "IN_LEN" then some 2
  else if t = ascii "OUT_LEN" then some 3
  else parseNumber t

/-- A byte of `loadb` and `expect outb`: one or two hex digits (R66). -/
def parseHexByte : Token → Option Byte
  | .word t =>
    if (t.length = 1 ∨ t.length = 2) ∧ t.all isHexDigit = true then some (BitVec.ofNat 8 (hexval t)) else none
  | .quoted _ => none
  | .mark _ => none

/-- The codes of `expect tset`, separated by commas, up to the closing brace (R66). A code may be listed twice, and a
comma before the brace is no list (DESIGN CHOICE, log entry 14). -/
def parseCodes : List Token → Option (List U16)
  | [.word t, .mark b] => if b = closeByte then (parseCode t).map (fun c => [c]) else none
  | .word t :: .mark b :: ts =>
    if b = commaByte then (parseCode t).bind (fun c => (parseCodes ts).map (fun C => c :: C)) else none
  | _ => none

/-- A text of printable ASCII (R66, in `load`). -/
def isPrintable (t : Bytes) : Bool := t.all (fun b => decide (0x20 ≤ b.toNat ∧ b.toNat ≤ 0x7E))

/-- The command a lower-case mnemonic names (R66). -/
def parseCommand (t : Bytes) : Option Instr :=
  if t = ascii "expand" then some .expand
  else if t = ascii "expandi" then some .expandi
  else if t = ascii "contract" then some .contract
  else if t = ascii "rev4" then some .rev4
  else if t = ascii "rev6" then some .rev6
  else if t = ascii "tbmenc" then some .tbmenc
  else if t = ascii "tbmdec" then some .tbmdec
  else if t = ascii "tsetclr" then some .tsetclr
  else none

/-- A statement of one keyword and no operand. -/
def parseNullary (k : Bytes) : Option Stmt :=
  if k = ascii "reset" then some (.txn .reset)
  else if k = ascii "copyout" then some .copyout
  else if k = ascii "loadb" then some (.load [])
  else (parseCommand k).map .command

/-- A statement of one keyword and one operand. -/
def parseUnary (k n : Bytes) : Option Stmt :=
  if k = ascii "rdin" then (parseNumber n).map (fun i => .txn (.rdin i))
  else if k = ascii "rdout" then (parseNumber n).map (fun i => .txn (.rdout i))
  else if k = ascii "rdtset" then (parseCode n).map (fun c => .txn (.rdtset c))
  else if k = ascii "rdcsr" then (parseCsr n).map (fun i => .txn (.rdcsr i))
  else if k = ascii "tadd" then (parseCode n).map .tadd
  else if k = ascii "tdel" then (parseCode n).map .tdel
  else none

/-- A statement of one keyword and two operands. -/
def parseBinary (k n v : Bytes) : Option Stmt :=
  if k = ascii "wrin" then (parseNumber n).bind (fun i => (parseByte v).map (fun b => .txn (.wrin i b)))
  else if k = ascii "wrtset" then (parseCode n).bind (fun c => (parseBit v).map (fun b => .txn (.wrtset c b)))
  else if k = ascii "wrcsr" then (parseCsr n).bind (fun i => (parseWord v).map (fun w => .txn (.wrcsr i w)))
  else none

/-- The tokens of a statement after the keyword `expect` (R66). That the text of `expect out` is printable ASCII, as
R66 says of `load`, and that `expect outb` may have no bytes, as R66 says of `loadb`, is a DESIGN CHOICE (log
entry 14). -/
def parseExpect : List Token → Option Stmt
  | [.word k, .quoted t] => if k = ascii "out" ∧ isPrintable t = true then some (.expectOut t) else none
  | .word k :: ts =>
    if k = ascii "outb" then (ts.mapM parseHexByte).map .expectOut
    else if k = ascii "status" then
      match ts with
      | [.word v] => (parseWord v).map .expectStatus
      | _ => none
    else if k = ascii "tset" then
      match ts with
      | [.mark a, .mark b] => if a = openByte ∧ b = closeByte then some (.expectTset []) else none
      | .mark a :: us => if a = openByte then (parseCodes us).map .expectTset else none
      | _ => none
    else none
  | _ => none

/-- A statement from its tokens. -/
def parseTokens : List Token → Option Stmt
  | [.word k, .quoted t] => if k = ascii "load" ∧ isPrintable t = true then some (.load t) else none
  | [.word k, .word n, .mark m, .word v] => if m = commaByte then parseBinary k n v else none
  | .word k :: ts =>
    if k = ascii "expect" then parseExpect ts
    else if k = ascii "loadb" then (ts.mapM parseHexByte).map .load
    else
      match ts with
      | [] => parseNullary k
      | [.word n] => parseUnary k n
      | _ => none
  | _ => none

/-- The statements of the lines of a script; a line with no token is no statement (R65). -/
def parseLines : List Bytes → Option (List Stmt)
  | [] => some []
  | l :: ls =>
    match lexLine .between l with
    | none => none
    | some [] => parseLines ls
    | some (t :: ts) => (parseTokens (t :: ts)).bind (fun st => (parseLines ls).map (fun sts => st :: sts))

/-- The statements of a script text, one a line (R65); none if a line is no statement. That the byte 0x0A alone ends
a line, and that the last line needs none, is a DESIGN CHOICE (log entry 14). -/
def parseScript (t : Bytes) : Option (List Stmt) := parseLines (split 0x0A#8 t)

end Sys2Proof.Machine
end

