-- ==== Sys2Proof/Safety.lean ====
section
/-! DEFINITION. What claims call a safe state: the invariants of spec/10_state.md R35, with the canonical form
of the model's own lists. -/

namespace Sys2Proof.Machine

/-- The invariants of R35, and the canonical forms under which equal contents are equal data. -/
structure Inv (cfg : Config) (s : State) : Prop where
  /-- `IN_LEN <= IN_MAX` (R28, R35). -/
  inLen_le : s.inLen.toNat ≤ cfg.inMax
  /-- `OUT_LEN <= OUT_MAX` (R29, R35). -/
  outLen_le : s.outLen.toNat ≤ cfg.outMax
  /-- `OUT[i] = 0x00` for all `i >= OUT_LEN` (R23, R35), where `OUT_LEN` can hold every length (log entry 5). -/
  out_zero : cfg.outLenFits → ∀ i, s.outLen.toNat ≤ i → s.outBuf.read i = 0x00#8
  /-- `STATUS.ERR` is 0, 1, 2 or 3 (R27, R35). -/
  err_le : (statusErr s.status).toNat ≤ 3
  /-- `STATUS.FB = 1` implies `ERR = 0` and `OP = 0x05` (R35). -/
  fb_rev6 : statusFb s.status = true → statusErr s.status = 0#4 ∧ statusOp s.status = 0x05#8
  /-- `STATUS.ERR != 0` implies `OUT_LEN = 0` (R35). -/
  err_no_result : statusErr s.status ≠ 0#4 → s.outLen = 0#32
  /-- `STATUS` bits 7:5 are 0 (R35). -/
  reserved_low : statusReservedLow s.status = 0#3
  /-- `STATUS` bits 31:16 are 0 (R35). -/
  reserved_high : statusReservedHigh s.status = 0#16
  /-- IN is in canonical form. -/
  in_wf : s.inBuf.wf
  /-- IN has no cell outside 0 to `IN_MAX - 1` (R22). -/
  in_range : ∀ c ∈ s.inBuf, c.1 < cfg.inMax
  /-- OUT is in canonical form. -/
  out_wf : s.outBuf.wf
  /-- TSET is in canonical form. -/
  tset_wf : s.tset.wf

/-- OUT holds exactly the result string `r` (R145, R146): `OUT_LEN` its length (a free value if it has 2^32 bytes or
more, log entry 6), OUT its bytes, 0x00 beyond. -/
def HoldsResult (t : State) (r : Bytes) : Prop :=
  t.outLen = resultLength r ∧ ∀ i, t.outBuf.read i = r.getD i 0x00#8

/-- STATUS holds the three fields, and its reserved bits are 0 (R27). -/
def HoldsStatus (t : State) (err : BitVec 4) (fb : Bool) (op : Byte) : Prop :=
  statusErr t.status = err ∧ statusFb t.status = fb ∧ statusOp t.status = op ∧
    statusReservedLow t.status = 0#3 ∧ statusReservedHigh t.status = 0#16

/-- Every byte of IN, and `IN_LEN`, are as before. -/
def SameInput (s t : State) : Prop := (∀ a, t.inBuf.read a = s.inBuf.read a) ∧ t.inLen = s.inLen

/-- Every cell of TSET is as before. -/
def SameTset (s t : State) : Prop := ∀ c, t.tset.test c = s.tset.test c

/-- Every byte of OUT, and `OUT_LEN`, are as before. -/
def SameOutput (s t : State) : Prop := (∀ a, t.outBuf.read a = s.outBuf.read a) ∧ t.outLen = s.outLen

/-- The host's side, the transactions still to come and the last reply, is as before. -/
def SameHost (s t : State) : Prop := t.pending = s.pending ∧ t.reply = s.reply

/-- The states a run from reset can reach (R160, R165), whatever the host does: at any point it may put
further transactions in line. -/
inductive Reachable (cfg : Config) : State → Prop where
  | reset : Reachable cfg State.reset
  | input (s : State) (l : List HostTxn) : Reachable cfg s → Reachable cfg (s.setPending l)
  | step (s t : State) : Reachable cfg s → stepWith cfg s = .next t → Reachable cfg t

/-- The last transaction of a step was refused: the run is outside every claim (R56). -/
def Refused (cfg : Config) (s : State) : Prop := ∃ r, stepWith cfg s = .refused r

end Sys2Proof.Machine
end

