-- ==== Sys2Proof/Certificates/Slice0/Obligations.lean ====
section
/-! DEFINITION. The statements for the provers, in the order of the spec's files. `HoldsResult` says that OUT holds a
result; where the result has 2^32 bytes or more, `OUT_LEN` is a free value (log entry 6). -/

open Sys2Proof Sys2Proof.Machine

/-! ## Configuration, STATUS and reset -/

/-- A STATUS value is `(OP << 8) | (FB << 4) | ERR` (95, conventions; R27), and its fields read back. -/
def Obligations.StatusValueFromFields : Prop :=
  ∀ (err : BitVec 4) (fb : Bool) (op : Byte),
    (packStatus err fb op).toNat = 256 * op.toNat + (if fb then 16 else 0) + err.toNat ∧
    statusErr (packStatus err fb op) = err ∧ statusFb (packStatus err fb op) = fb ∧
    statusOp (packStatus err fb op) = op ∧ statusReservedLow (packStatus err fb op) = 0#3 ∧
    statusReservedHigh (packStatus err fb op) = 0#16

/-- R33: the table of reset values, for the reset state and for what a RESET leaves in any state. -/
def Obligations.ResetValuesOfTheTable : Prop :=
  (∀ t : State, t = State.reset ∨ (∃ cfg s rest, s.pending = HostTxn.reset :: rest ∧ stepWith cfg s = .next t) →
    (∀ i, t.inBuf.read i = 0x00#8) ∧ t.inLen = 0#32 ∧ (∀ i, t.outBuf.read i = 0x00#8) ∧ t.outLen = 0#32 ∧
    (∀ c, t.tset.test c = false) ∧ statusErr t.status = 0#4 ∧ statusFb t.status = false ∧
    statusOp t.status = 0x00#8 ∧ t.status = 0x00000000#32 ∧ readCsr t 0 = some 0#32) ∧
  (∀ cfg s rest, s.pending = HostTxn.reset :: rest → ∃ t, stepWith cfg s = .next t)

/-- R161: what each command gives right after reset. -/
def Obligations.CommandsRightAfterReset : Prop :=
  (∀ i : Instr, i = .expand ∨ i = .contract ∨ i = .rev4 → ∃ t, exec i State.reset = .next t ∧
    HoldsStatus t 1#4 false (opcodeOf i) ∧ HoldsResult t []) ∧
  (∃ t, exec .expandi State.reset = .next t ∧ HoldsStatus t 0#4 false 0x02#8 ∧ HoldsResult t (ascii "0000")) ∧
  (∃ t, exec .rev6 State.reset = .next t ∧ HoldsStatus t 0#4 true 0x05#8 ∧
    HoldsResult t (ascii "0.0.0.0.ip6.arpa.")) ∧
  (∃ t, exec .tbmenc State.reset = .next t ∧ HoldsStatus t 0#4 false 0x08#8 ∧ HoldsResult t []) ∧
  (∃ t, exec .tbmdec State.reset = .next t ∧ HoldsStatus t 0#4 false 0x09#8 ∧ HoldsResult t [] ∧
    ∀ c, t.tset.test c = false)

/-! ## Decoding and the host port -/

/-- R62: the words of the opcode map, written out, decode to their commands. -/
def Obligations.CommandWordsDecodeAsListed : Prop :=
  decodeWord 0x00000001#32 = .ok .expand ∧ decodeWord 0x00000002#32 = .ok .expandi ∧
  decodeWord 0x00000003#32 = .ok .contract ∧ decodeWord 0x00000004#32 = .ok .rev4 ∧
  decodeWord 0x00000005#32 = .ok .rev6 ∧ decodeWord 0x00000008#32 = .ok .tbmenc ∧
  decodeWord 0x00000009#32 = .ok .tbmdec ∧ decodeWord 0x0000000A#32 = .ok .tsetclr

/-- R67 and R63, by number: the eight words decode to their commands and every other of the 2^32 words is
illegal; and every command's encoding is the word that decodes to it. -/
def Obligations.DecodingByNumberAndEncoding : Prop :=
  ∀ v : U32,
    (decodeWord v).toOption =
      (if v.toNat = 1 then some .expand else if v.toNat = 2 then some .expandi
       else if v.toNat = 3 then some .contract else if v.toNat = 4 then some .rev4
       else if v.toNat = 5 then some .rev6 else if v.toNat = 8 then some .tbmenc
       else if v.toNat = 9 then some .tbmdec else if v.toNat = 10 then some .tsetclr else none) ∧
    ∀ i, (decodeWord v).toOption = some i ↔ encode i = v

/-- R26: a host write of `v` to `CMD` runs the decoded command to completion inside that transaction, and a
host read of `CMD` returns 0 and has no effect. An illegal word is completed by R146. The step around `exec`
takes the transaction from the pending ones and leaves the reply `nothing`: these two fields are the model's own
(log entries 1 and 2). That `step` has the default capacities is the model's choice too (log entry 8). -/
def Obligations.CmdWriteRunsDecodedCommand : Prop :=
  (∀ s, step s = stepWith Config.default s) ∧
  ∀ (cfg : Config) (s : State) (rest : List HostTxn),
    (∀ v i, s.pending = .wrcsr 0 v :: rest → decodeWord v = .ok i →
      stepWith cfg s = exec i ((s.setPending rest).setReply .nothing)) ∧
    (∀ v e, s.pending = .wrcsr 0 v :: rest → decodeWord v = .error e →
      stepWith cfg s =
        .next (completeError (v.extractLsb' 0 8) .illegalCommand ((s.setPending rest).setReply .nothing))) ∧
    (s.pending = .rdcsr 0 :: rest → stepWith cfg s = .next ((s.setPending rest).setReply (.word 0#32)))

/-- R63: every word the opcode map does not list completes at once with IllegalCommand. -/
def Obligations.IllegalWordsCompleteWithCode3 : Prop :=
  ∀ (cfg : Config) (s : State) (v : U32) (rest : List HostTxn), s.pending = .wrcsr 0 v :: rest →
    v.toNat ∉ [1, 2, 3, 4, 5, 8, 9, 10] →
    ∃ t, stepWith cfg s = .next t ∧ HoldsStatus t 3#4 false (v.extractLsb' 0 8) ∧ HoldsResult t [] ∧
      SameInput s t ∧ SameTset s t

/-- R42, row WRIN: one byte of IN is stored and nothing else of the block changes. What `pending` and `reply`
hold is the model's own (log entries 1 and 2). -/
def Obligations.WrinStoresOneByte : Prop :=
  ∀ (cfg : Config) (s : State) (i : Nat) (b : Byte) (rest : List HostTxn),
    s.pending = .wrin i b :: rest → i < cfg.inMax →
    ∃ t, stepWith cfg s = .next t ∧ (∀ j, t.inBuf.read j = if j = i then b else s.inBuf.read j) ∧
      t.inLen = s.inLen ∧ SameOutput s t ∧ SameTset s t ∧ t.status = s.status ∧ t.pending = rest ∧
      t.reply = .nothing

/-- R42, row WRTSET: one cell of TSET is stored and nothing else of the block changes. What `pending` and
`reply` hold is the model's own (log entries 1 and 2). -/
def Obligations.WrtsetStoresOneCell : Prop :=
  ∀ (cfg : Config) (s : State) (c : U16) (v : Bool) (rest : List HostTxn),
    s.pending = .wrtset c v :: rest →
    ∃ t, stepWith cfg s = .next t ∧ (∀ d, t.tset.test d = if d = c then v else s.tset.test d) ∧
      SameInput s t ∧ SameOutput s t ∧ t.status = s.status ∧ t.pending = rest ∧ t.reply = .nothing

/-- R42, the read rows and the ignored CSR writes, with R48: a read returns its value and changes nothing. What
`pending` and `reply` hold is the model's own (log entries 1 and 2). -/
def Obligations.ReadsAndIgnoredWritesChangeNothing : Prop :=
  ∀ (cfg : Config) (s : State) (rest : List HostTxn),
    (∀ i, s.pending = .rdin i :: rest → i < cfg.inMax →
      stepWith cfg s = .next ((s.setPending rest).setReply (.byte (s.inBuf.read i)))) ∧
    (∀ i, s.pending = .rdout i :: rest → i < cfg.outMax →
      stepWith cfg s = .next ((s.setPending rest).setReply (.byte (s.outBuf.read i)))) ∧
    (∀ c, s.pending = .rdtset c :: rest →
      stepWith cfg s = .next ((s.setPending rest).setReply (.bit (s.tset.test c)))) ∧
    (s.pending = .rdcsr 0 :: rest → stepWith cfg s = .next ((s.setPending rest).setReply (.word 0#32))) ∧
    (s.pending = .rdcsr 1 :: rest → stepWith cfg s = .next ((s.setPending rest).setReply (.word s.status))) ∧
    (s.pending = .rdcsr 2 :: rest → stepWith cfg s = .next ((s.setPending rest).setReply (.word s.inLen))) ∧
    (s.pending = .rdcsr 3 :: rest → stepWith cfg s = .next ((s.setPending rest).setReply (.word s.outLen))) ∧
    (∀ v, s.pending = .wrcsr 1 v :: rest → stepWith cfg s = .next ((s.setPending rest).setReply .nothing)) ∧
    (∀ v, s.pending = .wrcsr 3 v :: rest → stepWith cfg s = .next ((s.setPending rest).setReply .nothing))

/-- R28: `IN_LEN` takes a written value of at most `IN_MAX`, keeps its value on any other, is never above
`IN_MAX` in a run, and is written by no command. -/
def Obligations.InLenTakesOnlyLegalValues : Prop :=
  (∀ (cfg : Config) (s : State) (v : U32) (rest : List HostTxn), s.pending = .wrcsr 2 v :: rest →
    ∃ t, stepWith cfg s = .next t ∧ t.inLen = (if v.toNat ≤ cfg.inMax then v else s.inLen) ∧
      (∀ a, t.inBuf.read a = s.inBuf.read a) ∧ SameOutput s t ∧ SameTset s t ∧ t.status = s.status) ∧
  (∀ (cfg : Config) (s : State), Reachable cfg s → s.inLen.toNat ≤ cfg.inMax) ∧
  (∀ (i : Instr) (s t : State), exec i s = .next t → t.inLen = s.inLen)

/-- R56: a transaction outside the ranges of R42, or a write to OUT, is refused. -/
def Obligations.OutOfRangeTransactionsRefused : Prop :=
  ∀ (cfg : Config) (s : State) (rest : List HostTxn),
    (∀ i b, cfg.inMax ≤ i → s.pending = .wrin i b :: rest → ∃ r, stepWith cfg s = .refused r) ∧
    (∀ i, cfg.inMax ≤ i → s.pending = .rdin i :: rest → ∃ r, stepWith cfg s = .refused r) ∧
    (∀ i, cfg.outMax ≤ i → s.pending = .rdout i :: rest → ∃ r, stepWith cfg s = .refused r) ∧
    (∀ n v, 4 ≤ n → s.pending = .wrcsr n v :: rest → ∃ r, stepWith cfg s = .refused r) ∧
    (∀ n, 4 ≤ n → s.pending = .rdcsr n :: rest → ∃ r, stepWith cfg s = .refused r) ∧
    (∀ i b, s.pending = .wrout i b :: rest → ∃ r, stepWith cfg s = .refused r)

/-- R165, R150: every transaction in range ends in a defined state, in every state, and takes itself from
the pending ones. That a step with nothing pending holds the state is the model's own choice (log entry 1). -/
def Obligations.InRangeTransactionsAlwaysComplete : Prop :=
  ∀ (cfg : Config) (s : State),
    (∀ t rest, s.pending = t :: rest → t.inRange cfg = true →
      ∃ s', stepWith cfg s = .next s' ∧ s'.pending = rest) ∧
    (s.pending = [] → stepWith cfg s = .next s)

/-- R22 to R24, R27: which transactions can change a byte of IN, a byte of OUT, a cell of TSET, STATUS. -/
def Obligations.OnlyTheseTransactionsWriteEachSpace : Prop :=
  ∀ (cfg : Config) (s t : State), stepWith cfg s = .next t →
    (∀ a, t.inBuf.read a ≠ s.inBuf.read a →
      ∃ rest, s.pending = .reset :: rest ∨ ∃ b, s.pending = .wrin a b :: rest) ∧
    (∀ a, t.outBuf.read a ≠ s.outBuf.read a →
      ∃ rest, s.pending = .reset :: rest ∨ ∃ v, s.pending = .wrcsr 0 v :: rest) ∧
    (∀ c, t.tset.test c ≠ s.tset.test c →
      ∃ rest, s.pending = .reset :: rest ∨ (∃ v, s.pending = .wrtset c v :: rest) ∨
        s.pending = .wrcsr 0 0x00000009#32 :: rest ∨ s.pending = .wrcsr 0 0x0000000A#32 :: rest) ∧
    (t.status ≠ s.status →
      ∃ rest, s.pending = .reset :: rest ∨ ∃ v, s.pending = .wrcsr 0 v :: rest)

/-- R41: `MemRead` after `MemWrite` of a range gives the bytes stored, every other byte is as before, and the
buffer keeps its canonical form. -/
def Obligations.RangeWriteThenRangeRead : Prop :=
  ∀ (m : Memory) (a : Nat) (v : Bytes),
    (m.writeRange a v).readRange a v.length = v ∧
    (∀ j, j < a ∨ a + v.length ≤ j → (m.writeRange a v).read j = m.read j) ∧
    (m.wf → (m.writeRange a v).wf)

/-! ## Completion, errors, invariants -/

/-- Successful completion (R145), for every command. `OUT_LEN` is the length, a free value where 32 bits cannot hold
it: that is the model's choice (log entry 6). -/
def Obligations.SuccessfulCompletionWrites : Prop :=
  ∀ (i : Instr) (s : State),
    (∀ r, commandOutcome i s = .ok (.bytes r) → ∃ t, exec i s = .next t ∧ HoldsResult t r ∧
      HoldsStatus t 0#4 (decide (i = .rev6) && (parseIPv6 (operandString s)).isNone) (opcodeOf i) ∧
      SameInput s t ∧ SameTset s t) ∧
    (∀ S, commandOutcome i s = .ok (.typeSet S) → ∃ t, exec i s = .next t ∧
      (∀ c, t.tset.test c = decide (c ∈ S)) ∧ HoldsResult t [] ∧ HoldsStatus t 0#4 false (opcodeOf i) ∧
      SameInput s t)

/-- R146: failed completion, for every command and every illegal word. -/
def Obligations.FailedCompletionWrites : Prop :=
  (∀ (i : Instr) (s : State) (e : ErrorKind), commandOutcome i s = .error e →
    ∃ t, exec i s = .next t ∧ HoldsResult t [] ∧ HoldsStatus t (errCode e) false (opcodeOf i) ∧
      SameInput s t ∧ SameTset s t) ∧
  (∀ (v : U32) (s : State) (e : IllegalWord), decodeWord v = .error e →
    ∃ t, runCommand v s = .next t ∧ HoldsResult t [] ∧ HoldsStatus t 3#4 false (v.extractLsb' 0 8) ∧
      SameInput s t ∧ SameTset s t) ∧
  errCode .invalidAddress = 1#4 ∧ errCode .malformedWireData = 2#4 ∧ errCode .illegalCommand = 3#4

/-- R144: which command can end with which code; every "yes" of the table is reached in some state. -/
def Obligations.ErrorCodesByCommand : Prop :=
  (∀ i : Instr, i = .expand ∨ i = .contract ∨ i = .rev4 →
    (∀ s t, exec i s = .next t → statusErr t.status = 0#4 ∨ statusErr t.status = 1#4) ∧
    (∃ s t, exec i s = .next t ∧ statusErr t.status = 0#4) ∧
    (∃ s t, exec i s = .next t ∧ statusErr t.status = 1#4)) ∧
  (∀ i : Instr, i = .expandi ∨ i = .rev6 ∨ i = .tbmenc ∨ i = .tsetclr →
    ∀ s, ∃ t, exec i s = .next t ∧ statusErr t.status = 0#4) ∧
  ((∀ s t, exec .tbmdec s = .next t → statusErr t.status = 0#4 ∨ statusErr t.status = 2#4) ∧
    (∃ s t, exec .tbmdec s = .next t ∧ statusErr t.status = 0#4) ∧
    (∃ s t, exec .tbmdec s = .next t ∧ statusErr t.status = 2#4)) ∧
  (∀ v s e, decodeWord v = .error e → ∃ t, runCommand v s = .next t ∧ statusErr t.status = 3#4)

/-- R30: `FB` is 1 only after a REV6 that fell back, 0 after every other completion; `ERR` is 0 on success and
the code on failure; and no command reads either: states that differ only in STATUS complete alike. -/
def Obligations.FlagsWrittenByEveryCompletion : Prop :=
  (∀ (i : Instr) (s t : State), exec i s = .next t →
    (statusFb t.status = true ↔ i = .rev6 ∧ parseIPv6 (operandString s) = none) ∧
    (∀ r, commandOutcome i s = .ok r → statusErr t.status = 0#4) ∧
    (∀ e, commandOutcome i s = .error e → statusErr t.status = errCode e)) ∧
  (∀ (v : U32) (s t : State) (e : IllegalWord), decodeWord v = .error e → runCommand v s = .next t →
    statusFb t.status = false ∧ statusErr t.status = 3#4) ∧
  (∀ (v w : U32) (s t : State), runCommand v s = .next t → runCommand v (s.setStatus w) = .next t)

/-- R31: the outcome of a command depends on its opcode, the operand string and TSET, and on nothing else. -/
def Obligations.OutcomeDependsOnOperandsOnly : Prop :=
  ∀ (i : Instr) (s s' t t' : State), operandString s = operandString s' → SameTset s s' →
    exec i s = .next t → exec i s' = .next t' →
    t.status = t'.status ∧ t.outLen = t'.outLen ∧ (∀ a, t.outBuf.read a = t'.outBuf.read a) ∧
      (∀ c, t.tset.test c = t'.tset.test c)

/-- R150: a failed command repeated on the same operands fails the same way; it leaves the very same state. -/
def Obligations.FailedCommandRepeatsItself : Prop :=
  ∀ (i : Instr) (s t : State), exec i s = .next t → statusErr t.status ≠ 0#4 → exec i t = .next t

/-- R35 at reset, with the canonical forms of the model's lists (log entries 4 and 9). The clause on OUT beyond
`OUT_LEN` has the premise `outLenFits`, that `OUT_MAX` is below 2^32 (log entries 5 and 6). -/
def Obligations.InvariantsHoldAtReset : Prop := ∀ cfg : Config, Inv cfg State.reset

/-- R35, and the canonical forms of the model's lists (log entries 4 and 9): every step keeps them, from
every state that meets them, for every legal configuration. For the clause on OUT beyond `OUT_LEN` see log
entries 5 and 6. -/
def Obligations.StepKeepsInvariants : Prop :=
  ∀ (cfg : Config) (s t : State), cfg.legal → Inv cfg s → stepWith cfg s = .next t → Inv cfg t

/-- R35: the invariants hold in every reachable state. That OUT is zero from `OUT_LEN` on is said where every length
of a result fits the 32 bits of `OUT_LEN`: R9 allows more, R29 does not (DEDUCED, log entries 5 and 6). -/
def Obligations.ReachableStatesMeetInvariants : Prop :=
  ∀ (cfg : Config) (s : State), cfg.legal → Reachable cfg s →
    s.inLen.toNat ≤ cfg.inMax ∧ s.outLen.toNat ≤ cfg.outMax ∧
    (cfg.outLenFits → ∀ i, s.outLen.toNat ≤ i → s.outBuf.read i = 0x00#8) ∧
    (statusErr s.status = 0#4 ∨ statusErr s.status = 1#4 ∨ statusErr s.status = 2#4 ∨ statusErr s.status = 3#4) ∧
    (statusFb s.status = true → statusErr s.status = 0#4 ∧ statusOp s.status = 0x05#8) ∧
    (statusErr s.status ≠ 0#4 → s.outLen = 0#32) ∧
    statusReservedLow s.status = 0#3 ∧ statusReservedHigh s.status = 0#16

/-! ## The address engine -/

/-- R86: the literals accepted and rejected. -/
def Obligations.ListedLiteralsAcceptedAndRejected : Prop :=
  (∀ s ∈ ["::", "::1", "1::", "1::8", "1:2:3:4:5:6:7:8", "1:2:3:4:5:6:7::", "::2:3:4:5:6:7:8",
      "2001:DB8::ABCD", "0:0:0:0:0:0:0:0", "::1.2.3.4", "::ffff:192.168.1.213", "1:2:3:4:5:6:1.2.3.4"],
    (parseIPv6 (ascii s)).isSome = true) ∧
  (∀ s ∈ ["", "1:2:3:4:5:6:7", "1:2:3:4:5:6:7:8:9", "1::2::3", ":::", "12345::", ":1:2:3:4:5:6:7",
      "1:2:3:4:5:6:7:", "1:2:3:4:5:6:7:8::", "1::2:3:4:5:6:7:8", "g::", "1.2.3.4", "::1.2.3.256",
      "::01.2.3.4", "::1.2.3", "::1.2.3.4:5", "1.2.3.4::", "fe80::1%eth0", "[::1]", "::/0", " ::1", "2001:db8"],
    parseIPv6 (ascii s) = none)

/-- R82 to R85 and R87: `ParseIPv6` reads exactly the literals of the grammar, with their hextets. -/
def Obligations.ParserReadsExactlyTheLiterals : Prop :=
  ∀ (s : Bytes) (h : List U16), parseIPv6 s = some h ↔ LiteralText s h

/-- R88: the full form is 39 bytes, eight groups of exactly four lowercase hex digits joined by colons. -/
def Obligations.FullFormIsEightGroupsOfFour : Prop :=
  ∀ h : List U16, h.length = 8 →
    renderFull h = join [colon] (h.map hex4) ∧ (renderFull h).length = 39 ∧
    ∀ g ∈ h.map hex4, g.length = 4 ∧ ∀ b ∈ g,
      (0x30 ≤ b.toNat ∧ b.toNat ≤ 0x39) ∨ (0x61 ≤ b.toNat ∧ b.toNat ≤ 0x66)

/-- R91: the full form of any eight hextets parses back to them. -/
def Obligations.FullFormParsesBack : Prop :=
  ∀ h : List U16, h.length = 8 → parseIPv6 (renderFull h) = some h

/-- R90: EXPAND. -/
def Obligations.ExpandGivesTheFullForm : Prop :=
  (∀ (s : State) (h : List U16), parseIPv6 (operandString s) = some h →
    ∃ t, exec .expand s = .next t ∧ HoldsResult t (renderFull h) ∧ t.outLen = 39#32 ∧
      HoldsStatus t 0#4 false 0x01#8 ∧ SameInput s t ∧ SameTset s t ∧ SameHost s t) ∧
  (∀ s : State, parseIPv6 (operandString s) = none →
    ∃ t, exec .expand s = .next t ∧ HoldsResult t [] ∧ t.outLen = 0#32 ∧ HoldsStatus t 1#4 false 0x01#8 ∧
      SameInput s t ∧ SameTset s t ∧ SameHost s t) ∧
  (∀ s t s' t' : State, exec .expand s = .next t → statusErr t.status = 0#4 →
    operandString s' = resultString t → exec .expand s' = .next t' → resultString t' = resultString t) ∧
  (∀ (s : State) (T : List Bytes), T.length = 8 → (∀ u ∈ T, u.length = 4 ∧ u.all isHexDigit = true) →
    operandString s = join [colon] T →
    ∃ t, exec .expand s = .next t ∧ HoldsResult t (join [colon] (T.map (fun u => u.map lowerHex)))) ∧
  (∀ p ∈ [("2001:db8:9a::42", "2001:0db8:009a:0000:0000:0000:0000:0042"),
      ("2001:DB8::ABCD", "2001:0db8:0000:0000:0000:0000:0000:abcd"),
      ("::ffff:192.168.1.213", "0000:0000:0000:0000:0000:ffff:c0a8:01d5"),
      ("::", "0000:0000:0000:0000:0000:0000:0000:0000")],
    expandFn (ascii p.1) = .ok (.bytes (ascii p.2)))

/-- R92: EXPANDI pads each token of any operand on its own, keeps their number, and never fails. -/
def Obligations.ExpandiPadsEachToken : Prop :=
  (∀ s : State, ∃ T : List Bytes, T ≠ [] ∧ (∀ u ∈ T, colon ∉ u) ∧ operandString s = join [colon] T) ∧
  (∀ (s : State) (T : List Bytes), T ≠ [] → (∀ u ∈ T, colon ∉ u) → operandString s = join [colon] T →
    ∃ t, exec .expandi s = .next t ∧
      HoldsResult t (join [colon] (T.map (fun u => List.replicate (4 - u.length) 0x30#8 ++ u))) ∧
      (join [colon] (T.map (fun u => List.replicate (4 - u.length) 0x30#8 ++ u))).length
        ≤ 5 * (operandString s).length + 4 ∧
      HoldsStatus t 0#4 false 0x02#8 ∧ SameInput s t ∧ SameTset s t ∧ SameHost s t)

/-- R93: CONTRACT's run is a zero range of greatest length, and of those the one that starts last. -/
def Obligations.LongestZeroRunIsTheLastLongest : Prop :=
  ∀ h : List U16, h.length = 8 →
    ((longestZeroRun h = (none, 0)) ↔ 0#16 ∉ h) ∧
    (∀ n, longestZeroRun h = (none, n) → n = 0) ∧
    ∀ st n, longestZeroRun h = (some st, n) →
      1 ≤ n ∧ ZeroRange h st n ∧
      ∀ a m, 1 ≤ m → ZeroRange h a m → m < n ∨ (m = n ∧ a ≤ st)

/-- R94: CONTRACT. -/
def Obligations.ContractGivesTheShorthand : Prop :=
  (∀ (s : State) (h : List U16), parseIPv6 (operandString s) = some h →
    ∃ (t : State) (r : Bytes), exec .contract s = .next t ∧ HoldsResult t r ∧
      (longestZeroRun h = (none, 0) → r = join [colon] (h.map hexmin)) ∧
      (∀ st n, longestZeroRun h = (some st, n) →
        r = join [colon] ((h.take st).map hexmin) ++ ascii "::" ++ join [colon] ((h.drop (st + n)).map hexmin)) ∧
      2 ≤ r.length ∧ r.length ≤ 39 ∧
      HoldsStatus t 0#4 false 0x03#8 ∧ SameInput s t ∧ SameTset s t ∧ SameHost s t) ∧
  (∀ s : State, parseIPv6 (operandString s) = none →
    ∃ t, exec .contract s = .next t ∧ HoldsResult t [] ∧ HoldsStatus t 1#4 false 0x03#8 ∧
      SameInput s t ∧ SameTset s t ∧ SameHost s t) ∧
  (∀ s t u v w : State, exec .contract s = .next t → statusErr t.status = 0#4 → exec .expand s = .next u →
    operandString v = resultString u → exec .contract v = .next w → resultString w = resultString t) ∧
  (∀ p ∈ [("2001:0000:0000:acad:0000:0000:0000:0001", "2001:0:0:acad::1"),
      ("2001:0000:0000:ab80:2390:0000:0000:000a", "2001:0:0:ab80:2390::a"),
      ("1:2:3:0:5:6:7:8", "1:2:3::5:6:7:8"), ("0:1:0:1:0:1:0:1", "0:1:0:1:0:1::1"),
      ("::ffff:192.168.1.213", "::ffff:c0a8:1d5"), ("0:0:0:0:0:0:0:0", "::")],
    contractFn (ascii p.1) = .ok (.bytes (ascii p.2)))

/-- R95: CONTRACT's output has no `::` when no hextet is zero, and exactly one when some hextet is zero. -/
def Obligations.ContractHasOneDoubleColonIffSomeZero : Prop :=
  ∀ (s t : State) (h : List U16), parseIPv6 (operandString s) = some h → exec .contract s = .next t →
    (0#16 ∉ h → resultString t = join [colon] (h.map hexmin) ∧ doubleColons 0 (resultString t) = []) ∧
    (0#16 ∈ h → ∃ p, doubleColons 0 (resultString t) = [p])

/-- R97: CONTRACT of EXPAND, CONTRACT, and EXPAND each denote the same hextets, and so the same 16 bytes. -/
def Obligations.ContractAndExpandKeepTheAddress : Prop :=
  ∀ (s : State) (h : List U16), parseIPv6 (operandString s) = some h →
    ∃ te tc, exec .expand s = .next te ∧ parseIPv6 (resultString te) = some h ∧
      exec .contract s = .next tc ∧ parseIPv6 (resultString tc) = some h ∧
      ∀ s', operandString s' = resultString te → ∃ t' h', exec .contract s' = .next t' ∧
        parseIPv6 (resultString t') = some h' ∧ h' = h ∧ addressBytes h' = addressBytes h

/-- R45: hextet `k` is bytes `2k` (high) and `2k+1` (low) of the 16-byte form. -/
def Obligations.HextetsAreBigEndianBytes : Prop :=
  ∀ h : List U16, h.length = 8 → (addressBytes h).length = 16 ∧
    ∀ k v, h[k]? = some v → ∃ hi lo : Byte, (addressBytes h)[2 * k]? = some hi ∧
      (addressBytes h)[2 * k + 1]? = some lo ∧ v.toNat = 256 * hi.toNat + lo.toNat

/-- R100: REV4. -/
def Obligations.Rev4ReversesTheOctets : Prop :=
  (∀ (s : State) (a b c d : Bytes), isDecOctet a = true → isDecOctet b = true → isDecOctet c = true →
    isDecOctet d = true → operandString s = join [dot] [a, b, c, d] →
    ∃ t, exec .rev4 s = .next t ∧ HoldsResult t (join [dot] [d, c, b, a] ++ ascii ".in-addr.arpa.") ∧
      21 ≤ (join [dot] [d, c, b, a] ++ ascii ".in-addr.arpa.").length ∧
      (join [dot] [d, c, b, a] ++ ascii ".in-addr.arpa.").length ≤ 29 ∧
      HoldsStatus t 0#4 false 0x04#8 ∧ SameInput s t ∧ SameTset s t ∧ SameHost s t) ∧
  (∀ s : State, (¬ ∃ a b c d, isDecOctet a = true ∧ isDecOctet b = true ∧ isDecOctet c = true ∧
      isDecOctet d = true ∧ operandString s = join [dot] [a, b, c, d]) →
    ∃ t, exec .rev4 s = .next t ∧ HoldsResult t [] ∧ HoldsStatus t 1#4 false 0x04#8 ∧
      SameInput s t ∧ SameTset s t ∧ SameHost s t) ∧
  (∀ s ∈ ["192.168.001.213", "1.2.3", "1.2.3.4.5", "256.1.1.1", "1..2.3", "", "1.2.3.4 "],
    rev4Fn (ascii s) = .error .invalidAddress) ∧
  rev4Fn (ascii "0.0.0.0") = .ok (.bytes (ascii "0.0.0.0.in-addr.arpa.")) ∧
  rev4Fn (ascii "192.168.1.213") = .ok (.bytes (ascii "213.1.168.192.in-addr.arpa."))

/-- R105: REV6. On the normal path the name is the 32 nibbles in reverse; on the fallback path it is whatever
EXPANDI gives, without colons, in reverse. -/
def Obligations.Rev6ReversesTheNibbles : Prop :=
  (∀ (s : State) (h : List U16), parseIPv6 (operandString s) = some h →
    ∃ t, exec .rev6 s = .next t ∧
      HoldsResult t (join [dot] (chars (h.flatMap hex4).reverse) ++ ascii ".ip6.arpa.") ∧ t.outLen = 73#32 ∧
      HoldsStatus t 0#4 false 0x05#8 ∧ SameInput s t ∧ SameTset s t ∧ SameHost s t) ∧
  (∀ (s : State), parseIPv6 (operandString s) = none →
    ∃ (t : State) (e d : Bytes), exec .rev6 s = .next t ∧ expandiFn (operandString s) = .ok (.bytes e) ∧
      d = e.filter (fun b => decide (b ≠ colon)) ∧ d ≠ [] ∧
      HoldsResult t (join [dot] (chars d.reverse) ++ ascii ".ip6.arpa.") ∧
      HoldsStatus t 0#4 true 0x05#8 ∧ SameInput s t ∧ SameTset s t ∧ SameHost s t) ∧
  (rev6Fn [] = .ok (.bytes (ascii "0.0.0.0.ip6.arpa.")) ∧ rev6Fallback [] = true) ∧
  rev6Fn (ascii "2001:db8::567:89ab") = .ok (.bytes
    (ascii "b.a.9.8.7.6.5.0.0.0.0.0.0.0.0.0.0.0.0.0.0.0.0.0.8.b.d.0.1.0.0.2.ip6.arpa."))

/-- R108: the fallback path of REV6 and the bit that shows it. -/
def Obligations.Rev6FallsBackInsteadOfFailing : Prop :=
  (∀ (s t : State), exec .rev6 s = .next t → statusErr t.status = 0#4 ∧
    (statusFb t.status = true ↔ parseIPv6 (operandString s) = none) ∧
    (parseIPv6 (operandString s) = none →
      ∃ e, expandiFn (operandString s) = .ok (.bytes e) ∧ HoldsResult t (nibbleName e))) ∧
  rev6Fn (ascii "2001:db8::/32") = .ok (.bytes (ascii "2.3./.0.0.0.0.0.8.b.d.0.1.0.0.2.ip6.arpa.")) ∧
  rev6Fn (ascii "1.2.3.4") = .ok (.bytes (ascii "4...3...2...1.ip6.arpa."))

/-- R109: REV6 of a fragment of whole hextets is the reverse name of that prefix. -/
def Obligations.Rev6OfAPrefixOfHextets : Prop :=
  (∀ (s : State) (T : List Bytes), T ≠ [] → T.length ≤ 7 → (∀ u ∈ T, isH16 u = true) →
    operandString s = join [colon] T →
    ∃ t, exec .rev6 s = .next t ∧ HoldsStatus t 0#4 true 0x05#8 ∧
      HoldsResult t (join [dot]
        (chars (T.flatMap (fun u => List.replicate (4 - u.length) 0x30#8 ++ u)).reverse) ++ ascii ".ip6.arpa.")) ∧
  rev6Fn (ascii "2001:db8") = .ok (.bytes (ascii "8.b.d.0.1.0.0.2.ip6.arpa."))

/-- R110: the result lengths of the address commands, in bytes of the operand; the bound of the fallback path
is met by an operand of colons (other than `::`, which is a valid literal). -/
def Obligations.AddressResultLengths : Prop :=
  (∀ s, parseIPv6 s = none → ∃ r, rev6Fn s = .ok (.bytes r) ∧ r.length ≤ 8 * s.length + 17) ∧
  (∀ s h, parseIPv6 s = some h → ∃ r, rev6Fn s = .ok (.bytes r) ∧ r.length = 73) ∧
  (∀ L, L ≠ 2 → ∃ r, rev6Fn (List.replicate L colon) = .ok (.bytes r) ∧ r.length = 8 * L + 17) ∧
  (∀ s r, expandFn s = .ok (.bytes r) → r.length = 39) ∧
  (∀ s r, expandiFn s = .ok (.bytes r) → r.length ≤ 5 * s.length + 4) ∧
  (∀ s r, contractFn s = .ok (.bytes r) → r.length ≤ 39) ∧
  (∀ s r, rev4Fn s = .ok (.bytes r) → r.length ≤ 29)

/-- R111: what each address command can raise. -/
def Obligations.AddressCommandErrors : Prop :=
  ∀ s : State,
    (∃ t, exec .expand s = .next t ∧
      statusErr t.status = if parseIPv6 (operandString s) = none then 1#4 else 0#4) ∧
    (∃ t, exec .expandi s = .next t ∧ statusErr t.status = 0#4) ∧
    (∃ t, exec .contract s = .next t ∧
      statusErr t.status = if parseIPv6 (operandString s) = none then 1#4 else 0#4) ∧
    (∃ t, exec .rev4 s = .next t ∧
      statusErr t.status = if parseIPv4 (operandString s) = none then 1#4 else 0#4) ∧
    (∃ t, exec .rev6 s = .next t ∧ statusErr t.status = 0#4)

/-- The frame of the commands whose result is a text or a byte string (R80, R120, R124): IN, `IN_LEN`, TSET and
the host's side are as before, OUT holds the result string and 0x00 beyond it, or nothing after an error, and
STATUS has no reserved bit set. -/
def Obligations.TextCommandsFrame : Prop :=
  ∀ (i : Instr) (s t : State),
    i = .expand ∨ i = .expandi ∨ i = .contract ∨ i = .rev4 ∨ i = .rev6 ∨ i = .tbmenc →
    exec i s = .next t →
    (∀ a, t.inBuf.read a = s.inBuf.read a) ∧ t.inLen = s.inLen ∧ (∀ c, t.tset.test c = s.tset.test c) ∧
    t.pending = s.pending ∧ t.reply = s.reply ∧
    (∃ r, HoldsResult t r ∧
      (commandOutcome i s = .ok (.bytes r) ∨ r = [] ∧ ∃ e, commandOutcome i s = .error e)) ∧
    statusReservedLow t.status = 0#3 ∧ statusReservedHigh t.status = 0#16

/-- The frame of the commands whose result is a type set (R120, R126, R130): IN, `IN_LEN` and the host's side
are as before, every byte of OUT reads 0x00, `OUT_LEN` is 0, and STATUS has no reserved bit set. -/
def Obligations.TypeSetCommandsFrame : Prop :=
  ∀ (i : Instr) (s t : State), i = .tbmdec ∨ i = .tsetclr → exec i s = .next t →
    (∀ a, t.inBuf.read a = s.inBuf.read a) ∧ t.inLen = s.inLen ∧ t.pending = s.pending ∧ t.reply = s.reply ∧
    (∀ a, t.outBuf.read a = 0x00#8) ∧ t.outLen = 0#32 ∧
    statusReservedLow t.status = 0#3 ∧ statusReservedHigh t.status = 0#16

/-! ## The bitmap engine -/

/-- R44: the wire form of one code `c`: window `c >> 8`, and local bit `c & 0xFF` most significant first. -/
def Obligations.WireFormOfOneCode : Prop :=
  ∀ (s : State) (c : U16), (∀ d, s.tset.test d = decide (d = c)) →
    ∃ t, exec .tbmenc s = .next t ∧
      HoldsResult t (BitVec.ofNat 8 (c.toNat / 256) :: BitVec.ofNat 8 (c.toNat % 256 / 8 + 1) ::
        (List.replicate (c.toNat % 256 / 8) 0x00#8 ++ [0x80#8 >>> (c.toNat % 8)]))

/-- R125, R122: TBMENC's result is a list of windows, strictly ascending, each of 1 to 32 bitmap bytes, the last
of them not zero, which have exactly the codes of TSET; it is determined by the set alone. -/
def Obligations.TbmencGivesMinimalWindows : Prop :=
  (∀ s : State, ∃ (t : State) (W : List (Byte × Bytes)), exec .tbmenc s = .next t ∧
    HoldsResult t (wireBytes W) ∧ WindowsOk W ∧ WindowsMinimal W ∧
    (∀ w ∈ W, ∃ c, windowOf c = w.1 ∧ WindowsHave [w] c) ∧
    (∀ c, WindowsHave W c ↔ s.tset.test c = true) ∧
    HoldsStatus t 0#4 false 0x08#8 ∧ SameInput s t ∧ SameTset s t ∧ SameHost s t) ∧
  (∀ S S' : TypeSet, (∀ c, S.test c = S'.test c) → tbmencFn S = tbmencFn S')

/-- R128: TBMENC's result is the sum of its windows' lengths, at most 8704 bytes, reached when every window
holds local bit 255. -/
def Obligations.TbmencResultLength : Prop :=
  ∀ S : TypeSet, ∃ r, tbmencFn S = .ok (.bytes r) ∧ r.length ≤ 8704 ∧
    r.length = ((List.range 256).map (fun w =>
      if localBits S (BitVec.ofNat 8 w) = [] then 0
      else 2 + (highestBit (localBits S (BitVec.ofNat 8 w)) / 8 + 1))).sum ∧
    ((∀ w, w < 256 → BitVec.ofNat 16 (256 * w + 255) ∈ S) → r.length = 8704) ∧
    ∀ cfg : Config, cfg.legal → r.length ≤ cfg.outMax

/-- R126: TBMDEC. An operand that is a list of accepted windows replaces TSET by their codes, ascending in the
model's list (`t.tset.wf`, the model's own form of the set, log entry 9); any other operand ends with
MalformedWireData and leaves TSET as it was. -/
def Obligations.TbmdecReplacesTheSet : Prop :=
  (∀ (s : State) (W : List (Byte × Bytes)), WindowsOk W → operandString s = wireBytes W →
    ∃ t, exec .tbmdec s = .next t ∧ (∀ c, t.tset.test c = true ↔ WindowsHave W c) ∧ t.tset.wf ∧
      HoldsResult t [] ∧ HoldsStatus t 0#4 false 0x09#8 ∧ SameInput s t ∧ SameHost s t) ∧
  (∀ s : State, (¬ ∃ W, WindowsOk W ∧ operandString s = wireBytes W) →
    ∃ t, exec .tbmdec s = .next t ∧ SameTset s t ∧ HoldsResult t [] ∧ HoldsStatus t 2#4 false 0x09#8 ∧
      SameInput s t ∧ SameHost s t) ∧
  tbmdecFn [0x00#8, 0x06#8, 0x40#8, 0x00#8, 0x00#8, 0x00#8, 0x00#8, 0x02#8] = .ok (.typeSet [1#16, 46#16]) ∧
  tbmdecFn [] = .ok (.typeSet []) ∧ tbmdecFn [0x00#8, 0x02#8, 0x40#8, 0x00#8] = .ok (.typeSet [1#16]) ∧
  tbmdecFn [0x00#8, 0x01#8, 0x00#8] = .ok (.typeSet [])

/-- R129: decoding an encoded set gives the set; encoding a decoded byte string gives it back exactly when no
window of it ends in a zero byte, and otherwise gives a shorter one. -/
def Obligations.TypeSetRoundTrips : Prop :=
  (∀ s t s' : State, exec .tbmenc s = .next t → operandString s' = resultString t →
    ∃ t', exec .tbmdec s' = .next t' ∧ statusErr t'.status = 0#4 ∧ ∀ c, t'.tset.test c = s.tset.test c) ∧
  (∀ (b : Bytes) (S : TypeSet), tbmdecFn b = .ok (.typeSet S) →
    ∃ (W : List (Byte × Bytes)) (r : Bytes), WindowsOk W ∧ b = wireBytes W ∧ tbmencFn S = .ok (.bytes r) ∧
      (r = b ↔ WindowsMinimal W) ∧ (¬ WindowsMinimal W → r.length < b.length ∧
        ∃ V, WindowsOk V ∧ WindowsMinimal V ∧ r = wireBytes V))

/-- R130: TSETCLR makes TSET the empty set; a TBMENC after it gives the empty string. -/
def Obligations.TsetclrEmptiesTheSet : Prop :=
  ∀ s : State, ∃ t, exec .tsetclr s = .next t ∧ (∀ c, t.tset.test c = false) ∧ HoldsResult t [] ∧
    t.outLen = 0#32 ∧ HoldsStatus t 0#4 false 0x0A#8 ∧ SameInput s t ∧ SameHost s t ∧
    ∃ u, exec .tbmenc t = .next u ∧ HoldsResult u []

/-! ## Scripts and systems -/

/-- R66, `load`: the expansion leaves the bytes as the operand string and touches nothing else. -/
def Obligations.LoadPlacesTheOperand : Prop :=
  ∀ (cfg : Config) (s : State) (b : Bytes), b.length ≤ cfg.inMax → b.length < 2 ^ 32 →
    ∃ t rs, runTxns cfg (loadTxns b) s = .next (t, rs) ∧ operandString t = b ∧
      (∀ a, b.length ≤ a → t.inBuf.read a = s.inBuf.read a) ∧ SameOutput s t ∧ SameTset s t ∧
      t.status = s.status ∧ t.pending = s.pending

/-- R66, `copyout`: the expansion moves the result string to the operand string. -/
def Obligations.CopyoutMovesTheResult : Prop :=
  ∀ (cfg : Config) (s : State), s.outLen.toNat ≤ cfg.inMax → s.outLen.toNat ≤ cfg.outMax →
    ∃ t rs, runTxns cfg (copyoutTxns s) s = .next (t, rs) ∧ operandString t = resultString s ∧
      SameOutput s t ∧ SameTset s t ∧ t.status = s.status ∧ t.pending = s.pending

/-- R154: instances share no state: a step of one leaves every other as it was. That each has capacities of its
own is the model's choice (log entry 21). -/
def Obligations.InstancesAreIndependent : Prop :=
  ∀ (cfgs : Nat → Config) (k : Nat) (blocks blocks' : List State), stepInstance cfgs k blocks = some blocks' →
    (∀ j, j ≠ k → blocks'[j]? = blocks[j]?) ∧
    ∃ s s', blocks[k]? = some s ∧ stepWith (cfgs k) s = .next s' ∧ blocks'[k]? = some s'
end

