-- ==== Sys2Proof/Laws/Memory.lean ====
section
/-! SUPPORT. The buffers: what a read gives after each operation, and that each keeps the canonical form. -/

namespace Sys2Proof.Machine

/-! ## Reads -/

@[simp] theorem Memory.read_nil (i : Nat) : Memory.read [] i = 0x00#8 := rfl

theorem Memory.read_erase (m : Memory) (i j : Nat) :
    (m.erase i).read j = if j = i then 0x00#8 else m.read j := by
  induction m with
  | nil => simp [Memory.erase]
  | cons c m ih =>
    unfold Memory.erase at ih ⊢
    by_cases hc : c.1 = i
    · rw [List.filter_cons_of_neg (by simp [hc]), ih]
      by_cases hj : j = i
      · simp [hj]
      · simp [hj, Memory.read, hc, Ne.symm hj]
    · rw [List.filter_cons_of_pos (by simp [hc])]
      simp only [Memory.read, ih]
      by_cases hj : c.1 = j
      · simp [hj, hj ▸ hc]
      · simp [hj]

theorem Memory.read_insert (m : Memory) (i j : Nat) (b : Byte) (hi : ∀ c ∈ m, c.1 ≠ i) :
    (Memory.insert i b m).read j = if j = i then b else m.read j := by
  induction m with
  | nil => by_cases hj : i = j <;> simp [Memory.insert, Memory.read, hj, eq_comm, unlistedByte]
  | cons c m ih =>
    have ih := ih (fun c hc => hi c (List.mem_cons_of_mem _ hc))
    have hc : c.1 ≠ i := hi c List.mem_cons_self
    unfold Memory.insert
    split
    · by_cases hj : i = j
      · simp [Memory.read, hj]
      · simp [Memory.read, hj, Ne.symm hj]
    · simp only [Memory.read, ih]
      by_cases hj : c.1 = j
      · simp [hj, hj ▸ hc]
      · simp [hj]

theorem Memory.erase_ne (m : Memory) (i : Nat) : ∀ c ∈ m.erase i, c.1 ≠ i := by
  intro c hc
  simpa using (List.mem_filter.mp hc).2

/-- A read after a write (R42): the byte written at its address, the old byte everywhere else. -/
theorem Memory.read_write (m : Memory) (i j : Nat) (b : Byte) :
    (m.write i b).read j = if j = i then b else m.read j := by
  unfold Memory.write
  split
  · rename_i h
    rw [Memory.read_erase]
    simp [h, unlistedByte]
  · rw [Memory.read_insert _ _ _ _ (m.erase_ne i), Memory.read_erase]
    split <;> simp_all

theorem Memory.read_ofBytesFrom (r : Bytes) (i j : Nat) :
    (Memory.ofBytesFrom i r).read j = if i ≤ j then r.getD (j - i) 0x00#8 else 0x00#8 := by
  induction r generalizing i with
  | nil => simp [Memory.ofBytesFrom]
  | cons b r ih =>
    unfold Memory.ofBytesFrom
    split
    · rename_i hb
      rw [ih]
      by_cases hij : i = j
      · simp [hij, hb, unlistedByte]
      · by_cases hle : i + 1 ≤ j
        · simp [hle, show i ≤ j by omega, show j - i = (j - (i + 1)) + 1 by omega]
        · simp [hle, show ¬ i ≤ j by omega]
    · simp only [Memory.read, ih]
      by_cases hij : i = j
      · simp [hij]
      · by_cases hle : i + 1 ≤ j
        · simp [hij, hle, show i ≤ j by omega, show j - i = (j - (i + 1)) + 1 by omega]
        · simp [hij, hle, show ¬ i ≤ j by omega]

/-- OUT after a completion (R145): byte `j` of the result string, 0x00 beyond it. -/
@[simp] theorem Memory.read_ofBytes (r : Bytes) (j : Nat) :
    (Memory.ofBytes r).read j = r.getD j 0x00#8 := by
  simp [Memory.ofBytes, Memory.read_ofBytesFrom]

@[simp] theorem Memory.length_readRange (m : Memory) (a n : Nat) : (m.readRange a n).length = n := by
  simp [Memory.readRange]

theorem Memory.getElem?_readRange (m : Memory) (a n k : Nat) :
    (m.readRange a n)[k]? = if k < n then some (m.read (a + k)) else none := by
  by_cases h : k < n
  · simp [Memory.readRange, h]
  · simp [Memory.readRange, h]

/-- The bytes read back from a buffer that holds a byte string. -/
theorem Memory.readRange_ofBytes (r : Bytes) : (Memory.ofBytes r).readRange 0 r.length = r := by
  apply List.ext_getElem?
  intro k
  rw [Memory.getElem?_readRange]
  by_cases h : k < r.length
  · simp [h, List.getD]
  · simp [h]

theorem Memory.readRange_congr {m m' : Memory} {a n : Nat} (h : ∀ i, m.read i = m'.read i) :
    m.readRange a n = m'.readRange a n := by
  simp [Memory.readRange, h]

theorem Memory.read_writeRange (v : Bytes) (m : Memory) (a j : Nat) :
    (m.writeRange a v).read j = if a ≤ j ∧ j < a + v.length then v.getD (j - a) 0x00#8 else m.read j := by
  induction v generalizing m a with
  | nil => simp [Memory.writeRange]
  | cons b v ih =>
    unfold Memory.writeRange
    rw [ih, Memory.read_write]
    by_cases h1 : a + 1 ≤ j ∧ j < a + 1 + v.length
    · simp [h1, show a ≤ j ∧ j < a + (v.length + 1) by omega, show j - a = (j - (a + 1)) + 1 by omega]
    · by_cases h2 : j = a
      · subst h2; simp
      · rw [if_neg h1, if_neg h2, if_neg (by simp only [List.length_cons]; omega)]

/-! ## The canonical form -/

theorem Memory.wf_nil : Memory.wf [] := by decide

theorem Memory.wf_erase {m : Memory} (h : m.wf) (i : Nat) : (m.erase i).wf :=
  ⟨h.1.filter _, fun c hc => h.2 c (List.mem_of_mem_filter hc)⟩

theorem Memory.mem_insert {m : Memory} {i : Nat} {b : Byte} {c : Host.Cell} :
    c ∈ Memory.insert i b m ↔ c = (i, b) ∨ c ∈ m := by
  induction m with
  | nil => simp [Memory.insert]
  | cons d m ih =>
    unfold Memory.insert
    split
    · simp
    · simp only [List.mem_cons, ih]; tauto

theorem Memory.wf_insert {m : Memory} {i : Nat} {b : Byte} (h : m.wf) (hb : b ≠ unlistedByte)
    (hi : ∀ c ∈ m, c.1 ≠ i) : (Memory.insert i b m).wf := by
  refine ⟨?_, fun c hc => ?_⟩
  · have h1 := h.1
    clear h
    induction m with
    | nil => simp [Memory.insert]
    | cons d m ih =>
      rw [List.pairwise_cons] at h1
      have hd : d.1 ≠ i := hi d List.mem_cons_self
      unfold Memory.insert
      split
      · rename_i hlt
        refine List.pairwise_cons.mpr ⟨fun c hc => ?_, List.pairwise_cons.mpr h1⟩
        rcases List.mem_cons.mp hc with rfl | hc
        · exact hlt
        · exact lt_trans hlt (h1.1 c hc)
      · refine List.pairwise_cons.mpr ⟨fun c hc => ?_, ih (fun c hc => hi c (List.mem_cons_of_mem _ hc)) h1.2⟩
        rcases Memory.mem_insert.mp hc with rfl | hc
        · simp only; omega
        · exact h1.1 c hc
  · rcases Memory.mem_insert.mp hc with rfl | hc
    · exact hb
    · exact h.2 c hc

theorem Memory.wf_write {m : Memory} (h : m.wf) (i : Nat) (b : Byte) : (m.write i b).wf := by
  unfold Memory.write
  split
  · exact Memory.wf_erase h i
  · exact Memory.wf_insert (Memory.wf_erase h i) ‹_› (m.erase_ne i)

theorem Memory.wf_writeRange (v : Bytes) {m : Memory} (h : m.wf) (a : Nat) : (m.writeRange a v).wf := by
  induction v generalizing m a with
  | nil => exact h
  | cons b v ih => exact ih (Memory.wf_write h a b) (a + 1)

theorem Memory.mem_ofBytesFrom {r : Bytes} {i : Nat} {c : Host.Cell} (h : c ∈ Memory.ofBytesFrom i r) :
    i ≤ c.1 ∧ c.1 < i + r.length ∧ c.2 ≠ unlistedByte := by
  induction r generalizing i with
  | nil => simp [Memory.ofBytesFrom] at h
  | cons b r ih =>
    unfold Memory.ofBytesFrom at h
    split at h
    · have h := ih h
      exact ⟨by omega, by simp only [List.length_cons]; omega, h.2.2⟩
    · rcases List.mem_cons.mp h with rfl | h
      · simp_all
      · have h := ih h
        exact ⟨by omega, by simp only [List.length_cons]; omega, h.2.2⟩

theorem Memory.wf_ofBytesFrom (r : Bytes) (i : Nat) : (Memory.ofBytesFrom i r).wf := by
  refine ⟨?_, fun c hc => (Memory.mem_ofBytesFrom hc).2.2⟩
  induction r generalizing i with
  | nil => simp [Memory.ofBytesFrom]
  | cons b r ih =>
    unfold Memory.ofBytesFrom
    split
    · exact ih (i + 1)
    · refine List.pairwise_cons.mpr ⟨fun c hc => ?_, ih (i + 1)⟩
      have := (Memory.mem_ofBytesFrom hc).1
      simp only; omega

theorem Memory.wf_ofBytes (r : Bytes) : (Memory.ofBytes r).wf := Memory.wf_ofBytesFrom r 0

/-- Every cell a write leaves is an old one or the one written. -/
theorem Memory.mem_write {m : Memory} {i : Nat} {b : Byte} {c : Host.Cell} (h : c ∈ m.write i b) :
    c ∈ m ∨ c = (i, b) := by
  unfold Memory.write at h
  split at h
  · exact .inl (List.mem_of_mem_filter h)
  · rcases Memory.mem_insert.mp h with h | h
    · exact .inr h
    · exact .inl (List.mem_of_mem_filter h)

theorem Memory.read_of_forall_ne {m : Memory} {i : Nat} (h : ∀ c ∈ m, c.1 ≠ i) : m.read i = 0x00#8 := by
  induction m with
  | nil => rfl
  | cons c m ih =>
    simp [Memory.read, h c List.mem_cons_self, ih (fun c hc => h c (List.mem_cons_of_mem _ hc))]

/-- Two buffers in canonical form with the same contents are the same list. -/
theorem Memory.ext_of_wf {m m' : Memory} (h : m.wf) (h' : m'.wf) (hr : ∀ i, m.read i = m'.read i) :
    m = m' := by
  induction m generalizing m' with
  | nil =>
    cases m' with
    | nil => rfl
    | cons c m' =>
      have := hr c.1
      simp only [Memory.read, if_true] at this
      exact absurd this.symm (h'.2 c List.mem_cons_self)
  | cons c m ih =>
    cases m' with
    | nil =>
      have := hr c.1
      simp only [Memory.read, if_true] at this
      exact absurd this (h.2 c List.mem_cons_self)
    | cons d m' =>
      have hc := h.2 c List.mem_cons_self
      have hd := h'.2 d List.mem_cons_self
      have h1 := List.pairwise_cons.mp h.1
      have h1' := List.pairwise_cons.mp h'.1
      have key : ∀ {e f : Host.Cell} {n n' : Memory}, (∀ x ∈ n', f.1 < x.1) → e.2 ≠ unlistedByte → e.1 < f.1 →
          (Memory.read (e :: n) e.1 = Memory.read (f :: n') e.1) → False := by
        intro e f n n' hf he hlt heq
        rw [Memory.read_of_forall_ne (m := f :: n')] at heq
        · simp only [Memory.read, if_true] at heq; exact he heq
        · intro x hx
          rcases List.mem_cons.mp hx with rfl | hx
          · omega
          · have := hf x hx; omega
      have haddr : c.1 = d.1 := by
        rcases lt_trichotomy c.1 d.1 with hlt | heq | hgt
        · exact (key h1'.1 hc hlt (hr c.1)).elim
        · exact heq
        · exact (key h1.1 hd hgt (hr d.1).symm).elim
      have hval : c.2 = d.2 := by
        have := hr c.1
        simpa [Memory.read, haddr] using this
      have hcd : c = d := Prod.ext haddr hval
      subst hcd
      congr 1
      refine ih ⟨h1.2, fun x hx => h.2 x (List.mem_cons_of_mem _ hx)⟩
        ⟨h1'.2, fun x hx => h'.2 x (List.mem_cons_of_mem _ hx)⟩ (fun i => ?_)
      by_cases hi : c.1 = i
      · subst hi
        rw [Memory.read_of_forall_ne (fun x hx => by have := h1.1 x hx; omega),
          Memory.read_of_forall_ne (fun x hx => by have := h1'.1 x hx; omega)]
      · simpa [Memory.read, hi] using hr i

end Sys2Proof.Machine
end

