-- ==== Sys2Proof/Laws/State.lean ====
section
/-! SUPPORT. One lemma per field and update of the state, so that no proof unfolds a record update. -/

namespace Sys2Proof.Machine

@[simp] theorem State.setInBuf_inBuf (s : State) (m : Memory) : (s.setInBuf m).inBuf = m := rfl
@[simp] theorem State.setInBuf_inLen (s : State) (m : Memory) : (s.setInBuf m).inLen = s.inLen := rfl
@[simp] theorem State.setInBuf_outBuf (s : State) (m : Memory) : (s.setInBuf m).outBuf = s.outBuf := rfl
@[simp] theorem State.setInBuf_outLen (s : State) (m : Memory) : (s.setInBuf m).outLen = s.outLen := rfl
@[simp] theorem State.setInBuf_tset (s : State) (m : Memory) : (s.setInBuf m).tset = s.tset := rfl
@[simp] theorem State.setInBuf_status (s : State) (m : Memory) : (s.setInBuf m).status = s.status := rfl
@[simp] theorem State.setInBuf_pending (s : State) (m : Memory) : (s.setInBuf m).pending = s.pending := rfl
@[simp] theorem State.setInBuf_reply (s : State) (m : Memory) : (s.setInBuf m).reply = s.reply := rfl

@[simp] theorem State.setInLen_inBuf (s : State) (v : U32) : (s.setInLen v).inBuf = s.inBuf := rfl
@[simp] theorem State.setInLen_inLen (s : State) (v : U32) : (s.setInLen v).inLen = v := rfl
@[simp] theorem State.setInLen_outBuf (s : State) (v : U32) : (s.setInLen v).outBuf = s.outBuf := rfl
@[simp] theorem State.setInLen_outLen (s : State) (v : U32) : (s.setInLen v).outLen = s.outLen := rfl
@[simp] theorem State.setInLen_tset (s : State) (v : U32) : (s.setInLen v).tset = s.tset := rfl
@[simp] theorem State.setInLen_status (s : State) (v : U32) : (s.setInLen v).status = s.status := rfl
@[simp] theorem State.setInLen_pending (s : State) (v : U32) : (s.setInLen v).pending = s.pending := rfl
@[simp] theorem State.setInLen_reply (s : State) (v : U32) : (s.setInLen v).reply = s.reply := rfl

@[simp] theorem State.setResult_inBuf (s : State) (r : Bytes) : (s.setResult r).inBuf = s.inBuf := rfl
@[simp] theorem State.setResult_inLen (s : State) (r : Bytes) : (s.setResult r).inLen = s.inLen := rfl
@[simp] theorem State.setResult_outBuf (s : State) (r : Bytes) : (s.setResult r).outBuf = Memory.ofBytes r := rfl
@[simp] theorem State.setResult_outLen (s : State) (r : Bytes) : (s.setResult r).outLen = resultLength r := rfl
@[simp] theorem State.setResult_tset (s : State) (r : Bytes) : (s.setResult r).tset = s.tset := rfl
@[simp] theorem State.setResult_status (s : State) (r : Bytes) : (s.setResult r).status = s.status := rfl
@[simp] theorem State.setResult_pending (s : State) (r : Bytes) : (s.setResult r).pending = s.pending := rfl
@[simp] theorem State.setResult_reply (s : State) (r : Bytes) : (s.setResult r).reply = s.reply := rfl

@[simp] theorem State.setTset_inBuf (s : State) (S : TypeSet) : (s.setTset S).inBuf = s.inBuf := rfl
@[simp] theorem State.setTset_inLen (s : State) (S : TypeSet) : (s.setTset S).inLen = s.inLen := rfl
@[simp] theorem State.setTset_outBuf (s : State) (S : TypeSet) : (s.setTset S).outBuf = s.outBuf := rfl
@[simp] theorem State.setTset_outLen (s : State) (S : TypeSet) : (s.setTset S).outLen = s.outLen := rfl
@[simp] theorem State.setTset_tset (s : State) (S : TypeSet) : (s.setTset S).tset = S := rfl
@[simp] theorem State.setTset_status (s : State) (S : TypeSet) : (s.setTset S).status = s.status := rfl
@[simp] theorem State.setTset_pending (s : State) (S : TypeSet) : (s.setTset S).pending = s.pending := rfl
@[simp] theorem State.setTset_reply (s : State) (S : TypeSet) : (s.setTset S).reply = s.reply := rfl

@[simp] theorem State.setStatus_inBuf (s : State) (v : U32) : (s.setStatus v).inBuf = s.inBuf := rfl
@[simp] theorem State.setStatus_inLen (s : State) (v : U32) : (s.setStatus v).inLen = s.inLen := rfl
@[simp] theorem State.setStatus_outBuf (s : State) (v : U32) : (s.setStatus v).outBuf = s.outBuf := rfl
@[simp] theorem State.setStatus_outLen (s : State) (v : U32) : (s.setStatus v).outLen = s.outLen := rfl
@[simp] theorem State.setStatus_tset (s : State) (v : U32) : (s.setStatus v).tset = s.tset := rfl
@[simp] theorem State.setStatus_status (s : State) (v : U32) : (s.setStatus v).status = v := rfl
@[simp] theorem State.setStatus_pending (s : State) (v : U32) : (s.setStatus v).pending = s.pending := rfl
@[simp] theorem State.setStatus_reply (s : State) (v : U32) : (s.setStatus v).reply = s.reply := rfl

@[simp] theorem State.setPending_inBuf (s : State) (l : List HostTxn) : (s.setPending l).inBuf = s.inBuf := rfl
@[simp] theorem State.setPending_inLen (s : State) (l : List HostTxn) : (s.setPending l).inLen = s.inLen := rfl
@[simp] theorem State.setPending_outBuf (s : State) (l : List HostTxn) : (s.setPending l).outBuf = s.outBuf := rfl
@[simp] theorem State.setPending_outLen (s : State) (l : List HostTxn) : (s.setPending l).outLen = s.outLen := rfl
@[simp] theorem State.setPending_tset (s : State) (l : List HostTxn) : (s.setPending l).tset = s.tset := rfl
@[simp] theorem State.setPending_status (s : State) (l : List HostTxn) : (s.setPending l).status = s.status := rfl
@[simp] theorem State.setPending_pending (s : State) (l : List HostTxn) : (s.setPending l).pending = l := rfl
@[simp] theorem State.setPending_reply (s : State) (l : List HostTxn) : (s.setPending l).reply = s.reply := rfl

@[simp] theorem State.setReply_inBuf (s : State) (r : Reply) : (s.setReply r).inBuf = s.inBuf := rfl
@[simp] theorem State.setReply_inLen (s : State) (r : Reply) : (s.setReply r).inLen = s.inLen := rfl
@[simp] theorem State.setReply_outBuf (s : State) (r : Reply) : (s.setReply r).outBuf = s.outBuf := rfl
@[simp] theorem State.setReply_outLen (s : State) (r : Reply) : (s.setReply r).outLen = s.outLen := rfl
@[simp] theorem State.setReply_tset (s : State) (r : Reply) : (s.setReply r).tset = s.tset := rfl
@[simp] theorem State.setReply_status (s : State) (r : Reply) : (s.setReply r).status = s.status := rfl
@[simp] theorem State.setReply_pending (s : State) (r : Reply) : (s.setReply r).pending = s.pending := rfl
@[simp] theorem State.setReply_reply (s : State) (r : Reply) : (s.setReply r).reply = r := rfl

end Sys2Proof.Machine
end

