-- ==== Sys2Proof/Laws/Status.lean ====
section
/-! SUPPORT. The fields of a packed STATUS value read back, and its reserved bits are 0. -/

namespace Sys2Proof.Machine

/-- Every bit of a packed STATUS value (R27). -/
theorem packStatus_getLsbD (e : BitVec 4) (f : Bool) (o : Byte) (i : Nat) :
    (packStatus e f o).getLsbD i =
      if i < 4 then e.getLsbD i else if i < 5 then f else if i < 8 then false
      else if i < 16 then o.getLsbD (i - 8) else false := by
  show BitVec.getLsbD (w := 16 + 8 + 3 + 1 + 4) (0#16 ++ o ++ 0#3 ++ BitVec.ofBool f ++ e) i = _
  simp only [BitVec.getLsbD_append, BitVec.getLsbD_ofBool, BitVec.getLsbD_zero]
  split
  · rfl
  · by_cases h5 : i < 5
    · simp [h5, show i - 4 = 0 by omega]
    · by_cases h8 : i < 8
      · simp [h5, h8, show ¬ i - 4 < 1 by omega, show i - 4 - 1 < 3 by omega]
      · by_cases h16 : i < 16
        · simp [h5, h8, h16, show ¬ i - 4 < 1 by omega, show ¬ i - 4 - 1 < 3 by omega,
            show i - 4 - 1 - 3 = i - 8 by omega, show i - 8 < 8 by omega]
        · simp [h5, h8, h16, show ¬ i - 4 < 1 by omega, show ¬ i - 4 - 1 < 3 by omega,
            show ¬ i - 4 - 1 - 3 < 8 by omega]

@[simp] theorem statusErr_packStatus (e : BitVec 4) (f : Bool) (o : Byte) :
    statusErr (packStatus e f o) = e := by
  ext i hi
  simp [statusErr, packStatus_getLsbD, hi]

@[simp] theorem statusFb_packStatus (e : BitVec 4) (f : Bool) (o : Byte) :
    statusFb (packStatus e f o) = f := by
  rw [statusFb, packStatus_getLsbD]
  rfl

@[simp] theorem statusOp_packStatus (e : BitVec 4) (f : Bool) (o : Byte) :
    statusOp (packStatus e f o) = o := by
  ext i hi
  simp [statusOp, packStatus_getLsbD, show ¬ 8 + i < 4 by omega, show ¬ 8 + i < 5 by omega,
    show 8 + i < 16 by omega, hi]

@[simp] theorem statusReservedLow_packStatus (e : BitVec 4) (f : Bool) (o : Byte) :
    statusReservedLow (packStatus e f o) = 0#3 := by
  ext i hi
  simp [statusReservedLow, packStatus_getLsbD, show ¬ 5 + i < 4 by omega, show 5 + i < 8 by omega]

@[simp] theorem statusReservedHigh_packStatus (e : BitVec 4) (f : Bool) (o : Byte) :
    statusReservedHigh (packStatus e f o) = 0#16 := by
  ext i hi
  simp [statusReservedHigh, packStatus_getLsbD, show ¬ 16 + i < 4 by omega, show ¬ 16 + i < 5 by omega]

end Sys2Proof.Machine
end

