-- ==== Sys2Proof/Laws/TypeSet.lean ====
section
/-! SUPPORT. The type-set store: what a cell reads after a write, and that each operation keeps the canonical
form. -/

namespace Sys2Proof.Machine

@[simp] theorem TypeSet.test_iff (S : TypeSet) (c : U16) : S.test c = true ↔ c ∈ S := by
  simp [TypeSet.test]

theorem TypeSet.mem_insert {S : TypeSet} {c d : U16} : d ∈ TypeSet.insert c S ↔ d = c ∨ d ∈ S := by
  induction S with
  | nil => simp [TypeSet.insert]
  | cons e S ih =>
    unfold TypeSet.insert
    split
    · simp
    · simp only [List.mem_cons, ih]; tauto

theorem TypeSet.mem_write {S : TypeSet} {c d : U16} {v : Bool} :
    d ∈ S.write c v ↔ if d = c then v = true else d ∈ S := by
  unfold TypeSet.write
  cases v
  · by_cases h : d = c <;> simp [h]
  · by_cases h : d = c <;> simp [TypeSet.mem_insert, h]

/-- A cell after a write (R42): the bit written at its code, the old bit everywhere else. -/
theorem TypeSet.test_write (S : TypeSet) (c d : U16) (v : Bool) :
    (S.write c v).test d = if d = c then v else S.test d := by
  rw [Bool.eq_iff_iff, TypeSet.test_iff, TypeSet.mem_write]
  split <;> simp

theorem TypeSet.wf_insert {S : TypeSet} {c : U16} (h : S.wf) (hc : c ∉ S) : (TypeSet.insert c S).wf := by
  induction S with
  | nil => simp [TypeSet.insert, TypeSet.wf]
  | cons d S ih =>
    have h1 := List.pairwise_cons.mp h
    have hd : c.toNat ≠ d.toNat := fun he => hc (by simp [BitVec.eq_of_toNat_eq he])
    unfold TypeSet.insert
    split
    · rename_i hlt
      refine List.pairwise_cons.mpr ⟨fun e he => ?_, h⟩
      rcases List.mem_cons.mp he with rfl | he
      · exact hlt
      · exact lt_trans hlt (h1.1 e he)
    · refine List.pairwise_cons.mpr ⟨fun e he => ?_, ih h1.2 (fun hm => hc (List.mem_cons_of_mem _ hm))⟩
      rcases TypeSet.mem_insert.mp he with rfl | he
      · omega
      · exact h1.1 e he

theorem TypeSet.wf_write {S : TypeSet} (h : S.wf) (c : U16) (v : Bool) : (S.write c v).wf := by
  unfold TypeSet.write
  have hf : TypeSet.wf (S.filter (fun d => decide (d ≠ c))) := h.filter _
  cases v
  · exact hf
  · exact TypeSet.wf_insert hf (by simp)

/-- Two type sets in canonical form with the same members are the same list. -/
theorem TypeSet.ext_of_wf {S S' : TypeSet} (h : S.wf) (h' : S'.wf) (hm : ∀ c, c ∈ S ↔ c ∈ S') : S = S' := by
  have nd : ∀ {T : TypeSet}, T.wf → T.Nodup := fun hT => hT.imp (fun hab he => by simp [he] at hab)
  have hp : S.Perm S' := (List.perm_ext_iff_of_nodup (nd h) (nd h')).mpr hm
  exact hp.eq_of_pairwise (le := fun a b => a.toNat < b.toNat)
    (fun a b _ _ h1 h2 => absurd h1 (by omega)) h h'

end Sys2Proof.Machine
end

