-- ==== Sys2Proof/Laws/Completion.lean ====
section
/-! SUPPORT. What a completion leaves (R145, R146), and that every command is one completion. -/

namespace Sys2Proof.Machine

/-! ## What a completion leaves -/

@[simp] theorem complete_inBuf (op : Byte) (fb : Bool) (o : CommandOutcome) (s : State) :
    (complete op fb o s).inBuf = s.inBuf := by
  rcases o with e | (r | S) <;> rfl

@[simp] theorem complete_inLen (op : Byte) (fb : Bool) (o : CommandOutcome) (s : State) :
    (complete op fb o s).inLen = s.inLen := by
  rcases o with e | (r | S) <;> rfl

@[simp] theorem complete_pending (op : Byte) (fb : Bool) (o : CommandOutcome) (s : State) :
    (complete op fb o s).pending = s.pending := by
  rcases o with e | (r | S) <;> rfl

@[simp] theorem complete_reply (op : Byte) (fb : Bool) (o : CommandOutcome) (s : State) :
    (complete op fb o s).reply = s.reply := by
  rcases o with e | (r | S) <;> rfl

/-- The result string of an outcome: empty unless it is a byte string. -/
def outcomeBytes : CommandOutcome → Bytes
  | .ok (.bytes r) => r
  | .ok (.typeSet _) => []
  | .error _ => []

/-- The type set an outcome leaves. -/
def outcomeSet (S : TypeSet) : CommandOutcome → TypeSet
  | .ok (.bytes _) => S
  | .ok (.typeSet S') => S'
  | .error _ => S

/-- The error code of an outcome. -/
def outcomeErr : CommandOutcome → BitVec 4
  | .ok _ => 0#4
  | .error e => errCode e

/-- The fallback bit a completion writes. -/
def outcomeFb (fb : Bool) : CommandOutcome → Bool
  | .ok _ => fb
  | .error _ => false

@[simp] theorem complete_outBuf (op : Byte) (fb : Bool) (o : CommandOutcome) (s : State) :
    (complete op fb o s).outBuf = Memory.ofBytes (outcomeBytes o) := by
  rcases o with e | (r | S) <;> rfl

@[simp] theorem complete_outLen (op : Byte) (fb : Bool) (o : CommandOutcome) (s : State) :
    (complete op fb o s).outLen = resultLength (outcomeBytes o) := by
  rcases o with e | (r | S) <;> rfl

theorem resultLength_of_lt {r : Bytes} (h : r.length < 2 ^ 32) : resultLength r = BitVec.ofNat 32 r.length :=
  if_pos h

@[simp] theorem resultLength_nil : resultLength [] = 0#32 := rfl

theorem toNat_resultLength {r : Bytes} (h : r.length < 2 ^ 32) : (resultLength r).toNat = r.length := by
  rw [resultLength_of_lt h, BitVec.toNat_ofNat, Nat.mod_eq_of_lt h]

/-- `OUT_LEN` never exceeds a capacity the result fits, whatever the free value of log entry 6 is. -/
theorem toNat_resultLength_le {r : Bytes} {n : Nat} (h : r.length ≤ n) : (resultLength r).toNat ≤ n := by
  by_cases hr : r.length < 2 ^ 32
  · rwa [toNat_resultLength hr]
  · have := (resultLength r).isLt
    omega

@[simp] theorem complete_tset (op : Byte) (fb : Bool) (o : CommandOutcome) (s : State) :
    (complete op fb o s).tset = outcomeSet s.tset o := by
  rcases o with e | (r | S) <;> rfl

@[simp] theorem complete_status (op : Byte) (fb : Bool) (o : CommandOutcome) (s : State) :
    (complete op fb o s).status = packStatus (outcomeErr o) (outcomeFb fb o) op := by
  rcases o with e | (r | S) <;> rfl

theorem holdsResult_complete (op : Byte) (fb : Bool) (o : CommandOutcome) (s : State) :
    HoldsResult (complete op fb o s) (outcomeBytes o) :=
  ⟨by simp, fun i => by simp⟩

theorem holdsStatus_complete (op : Byte) (fb : Bool) (o : CommandOutcome) (s : State) :
    HoldsStatus (complete op fb o s) (outcomeErr o) (outcomeFb fb o) op := by
  simp [HoldsStatus]

theorem sameInput_complete (op : Byte) (fb : Bool) (o : CommandOutcome) (s : State) :
    SameInput s (complete op fb o s) := by
  simp [SameInput]

theorem sameHost_complete (op : Byte) (fb : Bool) (o : CommandOutcome) (s : State) :
    SameHost s (complete op fb o s) := by
  simp [SameHost]

theorem sameTset_complete_bytes (op : Byte) (fb : Bool) (r : Bytes) (s : State) :
    SameTset s (complete op fb (.ok (.bytes r)) s) := by
  simp [SameTset, outcomeSet]

theorem sameTset_complete_error (op : Byte) (fb : Bool) (e : ErrorKind) (s : State) :
    SameTset s (complete op fb (.error e) s) := by
  simp [SameTset, outcomeSet]

/-- The result string read back, when its length fits the register. -/
theorem resultString_complete (op : Byte) (fb : Bool) (o : CommandOutcome) (s : State)
    (h : (outcomeBytes o).length < 2 ^ 32) : resultString (complete op fb o s) = outcomeBytes o := by
  simp only [resultString, complete_outBuf, complete_outLen, toNat_resultLength h, Memory.readRange_ofBytes]

/-! ## Every command is one completion -/

/-- What `exec` can do: it completes the command with the outcome of its pseudocode (R67). -/
theorem exec_eq_complete (i : Instr) (s : State) :
    exec i s = .next (complete (opcodeOf i) (commandFallback i s) (commandOutcome i s) s) := by
  cases i <;> rfl

theorem exec_next_iff (i : Instr) (s t : State) :
    exec i s = .next t ↔ t = complete (opcodeOf i) (commandFallback i s) (commandOutcome i s) s := by
  rw [exec_eq_complete]
  exact ⟨fun h => (Host.Outcome.next.inj h).symm, fun h => h ▸ rfl⟩

@[simp] theorem length_operandString (s : State) : (operandString s).length = s.inLen.toNat := by
  simp [operandString]

theorem operandString_congr {s s' : State} (h : SameInput s s') : operandString s' = operandString s := by
  unfold operandString
  rw [h.2]
  exact Memory.readRange_congr h.1

end Sys2Proof.Machine
end

