-- ==== Sys2Proof/Laws/Text.lean ====
section
/-! SUPPORT. The string primitives of spec/00_scope.md R15: cutting and joining undo each other, and the hex
digits of a value give the value back. -/

namespace Sys2Proof.Machine

/-! ## split and join -/

theorem split_ne_nil (c : Byte) (s : Bytes) : split c s ≠ [] := by
  cases s with
  | nil => simp [split]
  | cons b s =>
    unfold split
    split
    · simp
    · split <;> simp

theorem split_cons_self (c : Byte) (s : Bytes) : split c (c :: s) = [] :: split c s := by
  simp [split]

theorem split_cons_ne {c b : Byte} (h : b ≠ c) (s : Bytes) :
    ∃ t ts, split c s = t :: ts ∧ split c (b :: s) = (b :: t) :: ts := by
  obtain ⟨t, ts, hts⟩ := List.exists_cons_of_ne_nil (split_ne_nil c s)
  exact ⟨t, ts, hts, by simp [split, h, hts]⟩

/-- No token holds the cutting byte. -/
theorem not_mem_of_mem_split {c : Byte} {s t : Bytes} (h : t ∈ split c s) : c ∉ t := by
  induction s generalizing t with
  | nil => simp_all [split]
  | cons b s ih =>
    by_cases hb : b = c
    · subst hb
      rw [split_cons_self] at h
      rcases List.mem_cons.mp h with rfl | h
      · simp
      · exact ih h
    · obtain ⟨u, us, hu, hs⟩ := split_cons_ne hb s
      rw [hs] at h
      rcases List.mem_cons.mp h with rfl | h
      · have := ih (hu ▸ List.mem_cons_self : u ∈ split c s)
        simp [Ne.symm hb, this]
      · exact ih (by rw [hu]; exact List.mem_cons_of_mem _ h)

theorem join_cons_cons (sep t u : Bytes) (ts : List Bytes) :
    join sep (t :: u :: ts) = t ++ sep ++ join sep (u :: ts) := rfl

theorem join_cons_of_ne_nil (sep t : Bytes) {ts : List Bytes} (h : ts ≠ []) :
    join sep (t :: ts) = t ++ sep ++ join sep ts := by
  obtain ⟨u, us, rfl⟩ := List.exists_cons_of_ne_nil h
  rfl

theorem join_append (sep : Bytes) {T U : List Bytes} (hT : T ≠ []) (hU : U ≠ []) :
    join sep (T ++ U) = join sep T ++ sep ++ join sep U := by
  induction T with
  | nil => exact absurd rfl hT
  | cons t T ih =>
    by_cases hT' : T = []
    · subst hT'
      simp [join_cons_of_ne_nil sep t hU, join]
    · rw [List.cons_append, join_cons_of_ne_nil sep t (by simp [hT']), ih hT', join_cons_of_ne_nil sep t hT']
      simp

/-- Joining the tokens of a string gives the string back (R15). -/
theorem join_split (c : Byte) (s : Bytes) : join [c] (split c s) = s := by
  induction s with
  | nil => rfl
  | cons b s ih =>
    by_cases hb : b = c
    · subst hb
      rw [split_cons_self, join_cons_of_ne_nil _ _ (split_ne_nil b s), ih]
      rfl
    · obtain ⟨u, us, hu, hs⟩ := split_cons_ne hb s
      rw [hs]
      rw [hu] at ih
      cases us with
      | nil => simp only [join] at ih ⊢; rw [ih]
      | cons v us => rw [join_cons_cons] at ih ⊢; simp only [List.cons_append]; rw [ih]

theorem split_of_not_mem {c : Byte} {t : Bytes} (h : c ∉ t) : split c t = [t] := by
  induction t with
  | nil => rfl
  | cons b t ih =>
    simp only [List.mem_cons, not_or] at h
    simp [split, Ne.symm h.1, ih h.2]

theorem split_append_cons {c : Byte} {t : Bytes} (h : c ∉ t) (s : Bytes) :
    split c (t ++ c :: s) = t :: split c s := by
  induction t with
  | nil => exact split_cons_self c s
  | cons b t ih =>
    simp only [List.mem_cons, not_or] at h
    simp [split, Ne.symm h.1, ih h.2]

/-- Cutting a joined list of tokens gives the tokens back (R15). -/
theorem split_join {c : Byte} {T : List Bytes} (hT : T ≠ []) (h : ∀ t ∈ T, c ∉ t) :
    split c (join [c] T) = T := by
  induction T with
  | nil => exact absurd rfl hT
  | cons t T ih =>
    by_cases hT' : T = []
    · subst hT'
      exact split_of_not_mem (h t List.mem_cons_self)
    · rw [join_cons_of_ne_nil _ _ hT', List.append_assoc, List.singleton_append,
        split_append_cons (h t List.mem_cons_self), ih hT' (fun u hu => h u (List.mem_cons_of_mem _ hu))]

theorem length_split (c : Byte) (s : Bytes) : (split c s).length = s.count c + 1 := by
  induction s with
  | nil => rfl
  | cons b s ih =>
    by_cases hb : b = c
    · subst hb
      simp [split_cons_self, ih]
    · obtain ⟨u, us, hu, hs⟩ := split_cons_ne hb s
      rw [hs, List.count_cons_of_ne hb, ← ih, hu]
      rfl

theorem length_join (c : Byte) (T : List Bytes) :
    (join [c] T).length = (T.map List.length).sum + (T.length - 1) := by
  induction T with
  | nil => rfl
  | cons t T ih =>
    by_cases hT : T = []
    · subst hT; simp [join]
    · have : 1 ≤ T.length := List.length_pos_of_ne_nil hT
      rw [join_cons_of_ne_nil _ _ hT]
      simp only [List.length_append, List.length_cons, List.length_nil, ih, List.map_cons, List.sum_cons]
      omega

theorem mem_join {c b : Byte} {T : List Bytes} (h : b ∈ join [c] T) : b = c ∨ ∃ t ∈ T, b ∈ t := by
  induction T with
  | nil => simp [join] at h
  | cons t T ih =>
    by_cases hT : T = []
    · subst hT; exact .inr ⟨t, List.mem_cons_self, h⟩
    · rw [join_cons_of_ne_nil _ _ hT] at h
      simp only [List.mem_append, List.mem_singleton] at h
      rcases h with (h | h) | h
      · exact .inr ⟨t, List.mem_cons_self, h⟩
      · exact .inl h
      · rcases ih h with h | ⟨u, hu, hb⟩
        · exact .inl h
        · exact .inr ⟨u, List.mem_cons_of_mem _ hu, hb⟩

/-- Removing the joining byte leaves the tokens, one after another. -/
theorem filter_join {c : Byte} {T : List Bytes} (h : ∀ t ∈ T, c ∉ t) :
    (join [c] T).filter (fun b => decide (b ≠ c)) = T.flatten := by
  have hf : ∀ t : Bytes, c ∉ t → t.filter (fun b => decide (b ≠ c)) = t := fun t ht =>
    List.filter_eq_self.mpr (fun b hb => decide_eq_true (fun e => ht (e ▸ hb)))
  induction T with
  | nil => rfl
  | cons t T ih =>
    have ht := hf t (h t List.mem_cons_self)
    by_cases hT : T = []
    · subst hT; simpa [join] using ht
    · rw [join_cons_of_ne_nil _ _ hT, List.filter_append, List.filter_append, ht,
        ih (fun u hu => h u (List.mem_cons_of_mem _ hu))]
      simp

/-! ## Padding -/

theorem length_lpad4 (t : Bytes) : (lpad4 t).length = max 4 t.length := by
  unfold lpad4
  split <;> simp <;> omega

theorem colon_not_mem_lpad4 {t : Bytes} (h : colon ∉ t) : colon ∉ lpad4 t := by
  unfold lpad4
  split
  · exact h
  · simp only [List.mem_append, List.mem_replicate, h, or_false, not_and]
    exact fun _ => by decide

/-! ## Hex digits -/

theorem digitval_hexDigit (d : BitVec 4) : digitval (hexDigit d) = d.toNat := by
  revert d; decide

theorem isHexDigit_hexDigit (d : BitVec 4) : isHexDigit (hexDigit d) = true := by
  revert d; decide

theorem isHexDigit_colon : isHexDigit colon = false := by decide

theorem isHexDigit_dot : isHexDigit dot = false := by decide

theorem not_isDigit_of_not_isHexDigit {b : Byte} (h : isHexDigit b = false) : isDigit b = false := by
  unfold isHexDigit at h
  simp only [Bool.or_eq_false_iff] at h
  exact h.1.1

@[simp] theorem length_hex4 (v : U16) : (hex4 v).length = 4 := rfl

theorem all_isHexDigit_hex4 (v : U16) : (hex4 v).all isHexDigit = true := by
  simp [hex4, isHexDigit_hexDigit]

/-- The digits of a u16 give the u16 back (R15). -/
theorem hexval_hex4 (v : U16) : hexval (hex4 v) = v.toNat := by
  simp only [hexval, hex4, List.foldl_cons, List.foldl_nil, digitval_hexDigit, BitVec.extractLsb'_toNat,
    Nat.shiftRight_eq_div_pow]
  have := v.isLt
  omega

theorem dropLeadingZeros_suffix (t : Bytes) : ∃ u, t = u ++ dropLeadingZeros t ∧ ∀ b ∈ u, b = zeroDigit := by
  fun_induction dropLeadingZeros t with
  | case1 => exact ⟨[], by simp⟩
  | case2 b => exact ⟨[], by simp⟩
  | case3 c t ih =>
    obtain ⟨u, hu, hz⟩ := ih
    exact ⟨zeroDigit :: u, by rw [List.cons_append, ← hu], by simpa using hz⟩
  | case4 b c t h => exact ⟨[], by simp⟩

theorem dropLeadingZeros_ne_nil {t : Bytes} (h : t ≠ []) : dropLeadingZeros t ≠ [] := by
  fun_induction dropLeadingZeros t with
  | case1 => exact h
  | case2 b => exact h
  | case3 c t ih => exact ih (by simp)
  | case4 b c t hb => exact h

theorem hexval_zeros_append {u t : Bytes} (h : ∀ b ∈ u, b = zeroDigit) : hexval (u ++ t) = hexval t := by
  induction u with
  | nil => rfl
  | cons b u ih =>
    have hb := h b List.mem_cons_self
    rw [List.cons_append, ← ih (fun c hc => h c (List.mem_cons_of_mem _ hc))]
    simp [hexval, hb, digitval, zeroDigit]

/-- The short digits of a u16 give the u16 back (R15). -/
theorem hexval_hexmin (v : U16) : hexval (hexmin v) = v.toNat := by
  obtain ⟨u, hu, hz⟩ := dropLeadingZeros_suffix (hex4 v)
  rw [hexmin, ← hexval_zeros_append hz, ← hu, hexval_hex4]

theorem all_isHexDigit_hexmin (v : U16) : (hexmin v).all isHexDigit = true := by
  obtain ⟨u, hu, -⟩ := dropLeadingZeros_suffix (hex4 v)
  have h := all_isHexDigit_hex4 v
  rw [hu, List.all_append, Bool.and_eq_true] at h
  exact h.2

theorem length_hexmin (v : U16) : 1 ≤ (hexmin v).length ∧ (hexmin v).length ≤ 4 := by
  obtain ⟨u, hu, -⟩ := dropLeadingZeros_suffix (hex4 v)
  have h := congrArg List.length hu
  rw [length_hex4, List.length_append] at h
  have hne : hexmin v ≠ [] := dropLeadingZeros_ne_nil (by simp [hex4])
  exact ⟨List.length_pos_of_ne_nil hne, by unfold hexmin; omega⟩

end Sys2Proof.Machine
end

