-- ==== Sys2Proof/Laws/Literal.lean ====
section
/-! SUPPORT. The parsers of spec/40_address_ops.md R83 to R85 read exactly the texts of the grammar. -/

namespace Sys2Proof.Machine

/-! ## Tokens -/

theorem isH16_iff {t : Bytes} :
    isH16 t = true ↔ 1 ≤ t.length ∧ t.length ≤ 4 ∧ ∀ b ∈ t, isHexDigit b = true := by
  simp [isH16, and_assoc]

theorem isH16_ne_nil {t : Bytes} (h : isH16 t = true) : t ≠ [] :=
  List.ne_nil_of_length_pos (isH16_iff.mp h).1

theorem not_mem_of_isH16 {t : Bytes} {c : Byte} (h : isH16 t = true) (hc : isHexDigit c = false) : c ∉ t := by
  intro hm
  have := (isH16_iff.mp h).2.2 c hm
  simp [hc] at this

theorem isDecOctet_all {u : Bytes} (h : isDecOctet u = true) : ∀ b ∈ u, isDigit b = true := by
  simp only [isDecOctet, Bool.and_eq_true, List.all_eq_true] at h
  exact h.1.1.2

theorem isDecOctet_length {u : Bytes} (h : isDecOctet u = true) : 1 ≤ u.length ∧ u.length ≤ 3 := by
  simp only [isDecOctet, Bool.and_eq_true, decide_eq_true_eq] at h
  exact h.1.1.1

theorem not_mem_of_isDecOctet {u : Bytes} {c : Byte} (h : isDecOctet u = true) (hc : isDigit c = false) :
    c ∉ u := by
  intro hm
  have := isDecOctet_all h c hm
  simp [hc] at this

theorem isH16_hex4 (v : U16) : isH16 (hex4 v) = true :=
  isH16_iff.mpr ⟨by simp, by simp, by simpa using all_isHexDigit_hex4 v⟩

theorem isH16_hexmin (v : U16) : isH16 (hexmin v) = true :=
  isH16_iff.mpr ⟨(length_hexmin v).1, (length_hexmin v).2, by simpa using all_isHexDigit_hexmin v⟩

theorem hextetVal_hex4 (v : U16) : hextetVal (hex4 v) = v := by
  simp [hextetVal, hexval_hex4]

theorem hextetVal_hexmin (v : U16) : hextetVal (hexmin v) = v := by
  simp [hextetVal, hexval_hexmin]

/-! ## Dotted quads -/

theorem dot_not_mem_octets {a b c d : Bytes} (ha : isDecOctet a = true) (hb : isDecOctet b = true)
    (hc : isDecOctet c = true) (hd : isDecOctet d = true) : ∀ t ∈ [a, b, c, d], dot ∉ t := by
  have hdot : isDigit dot = false := by decide
  simp only [List.mem_cons, List.not_mem_nil, or_false]
  rintro t (rfl | rfl | rfl | rfl)
  exacts [not_mem_of_isDecOctet ha hdot, not_mem_of_isDecOctet hb hdot, not_mem_of_isDecOctet hc hdot,
    not_mem_of_isDecOctet hd hdot]

/-- `ParseIPv4` (R83) reads exactly the dotted quads. -/
theorem parseIPv4_eq_some {t : Bytes} {q : Byte × Byte × Byte × Byte} :
    parseIPv4 t = some q ↔ QuadText t q := by
  constructor
  · intro h
    unfold parseIPv4 at h
    split at h
    · rename_i a b c d hs
      split at h
      · rename_i hok
        simp only [Bool.and_eq_true] at hok
        refine ⟨a, b, c, d, hok.1.1.1, hok.1.1.2, hok.1.2, hok.2, ?_, (Option.some.inj h).symm⟩
        rw [← hs, join_split]
      · cases h
    · cases h
  · rintro ⟨a, b, c, d, ha, hb, hc, hd, rfl, rfl⟩
    rw [parseIPv4, split_join (by simp) (dot_not_mem_octets ha hb hc hd)]
    simp [ha, hb, hc, hd]

theorem dot_mem_of_quadText {t : Bytes} {q : Byte × Byte × Byte × Byte} (h : QuadText t q) : dot ∈ t := by
  obtain ⟨a, b, c, d, -, -, -, -, rfl, -⟩ := h
  simp [join]

theorem isH16_of_quadText {t : Bytes} {q : Byte × Byte × Byte × Byte} (h : QuadText t q) : isH16 t = false := by
  rw [Bool.eq_false_iff]
  exact fun ht => not_mem_of_isH16 ht isHexDigit_dot (dot_mem_of_quadText h)

theorem colon_not_mem_of_quadText {t : Bytes} {q : Byte × Byte × Byte × Byte} (h : QuadText t q) :
    colon ∉ t := by
  obtain ⟨a, b, c, d, ha, hb, hc, hd, rfl, -⟩ := h
  have hcolon : isDigit colon = false := by decide
  intro hmem
  rcases mem_join hmem with h | ⟨u, hu, hm⟩
  · revert h; decide
  · simp only [List.mem_cons, List.not_mem_nil, or_false] at hu
    rcases hu with rfl | rfl | rfl | rfl
    exacts [not_mem_of_isDecOctet ha hcolon hm, not_mem_of_isDecOctet hb hcolon hm,
      not_mem_of_isDecOctet hc hcolon hm, not_mem_of_isDecOctet hd hcolon hm]

/-! ## Colon-separated groups -/

theorem groupTokens_eq_some {allowV4 : Bool} {T : List Bytes} {G : List U16} (hT : T ≠ []) :
    groupTokens allowV4 T = some G ↔
      ((∀ u ∈ T, isH16 u = true) ∧ G = T.map hextetVal) ∨
      (allowV4 = true ∧ ∃ T' u q, T = T' ++ [u] ∧ (∀ v ∈ T', isH16 v = true) ∧ QuadText u q ∧
        G = T'.map hextetVal ++ embeddedHextets q) := by
  induction T generalizing G with
  | nil => exact absurd rfl hT
  | cons t T ih =>
    cases T with
    | nil =>
      simp only [groupTokens]
      constructor
      · intro h
        split at h
        · rename_i ht
          exact .inl ⟨by simpa using ht, by simpa using h.symm⟩
        · split at h
          · rename_i ha
            obtain ⟨q, hq, hG⟩ := Option.map_eq_some_iff.mp h
            exact .inr ⟨ha, [], t, q, rfl, by simp, parseIPv4_eq_some.mp hq, by simpa using hG.symm⟩
          · cases h
      · rintro (⟨h, rfl⟩ | ⟨ha, T', u, q, hT', -, hq, rfl⟩)
        · simp [h t List.mem_cons_self]
        · have hlen := congrArg List.length hT'
          simp only [List.length_cons, List.length_nil, List.length_append] at hlen
          obtain rfl : T' = [] := List.eq_nil_of_length_eq_zero (by omega)
          obtain rfl : t = u := by simpa using hT'
          simp [isH16_of_quadText hq, ha, parseIPv4_eq_some.mpr hq]
    | cons v T =>
      rw [groupTokens]
      constructor
      · intro h
        split at h
        · rename_i ht
          obtain ⟨G', hG', rfl⟩ := Option.map_eq_some_iff.mp h
          rcases (ih (by simp)).mp hG' with ⟨hall, rfl⟩ | ⟨ha, T', u, q, hT', hall, hq, rfl⟩
          · exact .inl ⟨by simpa [ht] using hall, by simp⟩
          · exact .inr ⟨ha, t :: T', u, q, by simp [hT'], by simpa [ht] using hall, hq, by simp⟩
        · cases h
      · rintro (⟨hall, rfl⟩ | ⟨ha, T', u, q, hT', hall, hq, rfl⟩)
        · rw [if_pos (hall t List.mem_cons_self),
            (ih (by simp)).mpr (.inl ⟨fun w hw => hall w (List.mem_cons_of_mem _ hw), rfl⟩)]
          simp
        · cases T' with
          | nil => simp at hT'
          | cons t' T' =>
            simp only [List.cons_append, List.cons.injEq] at hT'
            obtain ⟨rfl, hT'⟩ := hT'
            rw [if_pos (hall t List.mem_cons_self), (ih (by simp)).mpr
              (.inr ⟨ha, T', u, q, hT', fun w hw => hall w (List.mem_cons_of_mem _ hw), hq, rfl⟩)]
            simp

theorem colon_not_mem_of_isH16 {t : Bytes} (h : isH16 t = true) : colon ∉ t :=
  not_mem_of_isH16 h isHexDigit_colon

theorem hextetQuadText_tokens {T : List Bytes} {u : Bytes} {q : Byte × Byte × Byte × Byte}
    (h : ∀ v ∈ T, isH16 v = true) (hq : QuadText u q) : ∀ v ∈ T ++ [u], v ≠ [] ∧ colon ∉ v := by
  intro v hv
  rcases List.mem_append.mp hv with hv | hv
  · exact ⟨isH16_ne_nil (h v hv), colon_not_mem_of_isH16 (h v hv)⟩
  · obtain rfl : v = u := by simpa using hv
    exact ⟨List.ne_nil_of_mem (dot_mem_of_quadText hq), colon_not_mem_of_quadText hq⟩

/-- The text of groups is nothing, or non-empty tokens without colons joined by colons. -/
theorem groupsText_tokens {allowV4 : Bool} {t : Bytes} {G : List U16} (h : GroupsText allowV4 t G) :
    t = [] ∨ ∃ T : List Bytes, T ≠ [] ∧ (∀ u ∈ T, u ≠ [] ∧ colon ∉ u) ∧ t = join [colon] T := by
  rcases h with ⟨rfl, -⟩ | ⟨T, hT, hall, rfl, -⟩ | ⟨-, T, u, q, hall, hq, rfl, -⟩
  · exact .inl rfl
  · exact .inr ⟨T, hT, fun u hu => ⟨isH16_ne_nil (hall u hu), colon_not_mem_of_isH16 (hall u hu)⟩, rfl⟩
  · exact .inr ⟨T ++ [u], by simp, hextetQuadText_tokens hall hq, rfl⟩

/-- `Groups` (R84) reads exactly the texts of groups. -/
theorem groups_eq_some {allowV4 : Bool} {t : Bytes} {G : List U16} :
    groups t allowV4 = some G ↔ GroupsText allowV4 t G := by
  unfold groups
  constructor
  · intro h
    split at h
    · rename_i ht
      exact .inl ⟨ht, (Option.some.inj h).symm⟩
    · rcases (groupTokens_eq_some (split_ne_nil _ _)).mp h with ⟨hall, rfl⟩ | ⟨ha, T', u, q, hT', hall, hq, rfl⟩
      · exact .inr (.inl ⟨split colon t, split_ne_nil _ _, hall, (join_split _ _).symm, rfl⟩)
      · exact .inr (.inr ⟨ha, T', u, q, hall, hq, by rw [← hT', join_split], rfl⟩)
  · intro h
    have hne : ∀ {T : List Bytes}, T ≠ [] → (∀ u ∈ T, u ≠ [] ∧ colon ∉ u) → join [colon] T ≠ [] := by
      intro T hT hall hj
      have := split_join hT (fun u hu => (hall u hu).2)
      rw [hj] at this
      exact (hall [] (by rw [← this]; simp [split])).1 rfl
    rcases h with ⟨rfl, rfl⟩ | ⟨T, hT, hall, rfl, rfl⟩ | ⟨ha, T, u, q, hall, hq, rfl, rfl⟩
    · rfl
    · have htok : ∀ u ∈ T, u ≠ [] ∧ colon ∉ u := fun u hu =>
        ⟨isH16_ne_nil (hall u hu), colon_not_mem_of_isH16 (hall u hu)⟩
      rw [if_neg (hne hT htok), split_join hT (fun u hu => (htok u hu).2)]
      exact (groupTokens_eq_some hT).mpr (.inl ⟨hall, rfl⟩)
    · have htok := hextetQuadText_tokens hall hq
      rw [if_neg (hne (by simp) htok), split_join (by simp) (fun u hu => (htok u hu).2)]
      exact (groupTokens_eq_some (by simp)).mpr (.inr ⟨ha, T, u, q, rfl, hall, hq, rfl⟩)

/-! ## The places of `::` -/

theorem doubleColons_append {t : Bytes} (h : colon ∉ t) (p : Nat) (s : Bytes) :
    doubleColons p (t ++ s) = doubleColons (p + t.length) s := by
  induction t generalizing p with
  | nil => rfl
  | cons b t ih =>
    simp only [List.mem_cons, not_or] at h
    have hb : ∀ r, doubleColons p (b :: r) = doubleColons (p + 1) r := by
      intro r
      cases r with
      | nil => rfl
      | cons c r => simp [doubleColons, Ne.symm h.1]
    rw [List.cons_append, hb, ih h.2]
    congr 1
    simp only [List.length_cons]; omega

theorem doubleColons_colon_cons {b : Byte} (h : b ≠ colon) (p : Nat) (s : Bytes) :
    doubleColons p (colon :: b :: s) = doubleColons (p + 1) (b :: s) := by
  simp [doubleColons, h]

theorem doubleColons_nil (p : Nat) : doubleColons p [] = [] := rfl

/-- Joined tokens begin with a byte that is no colon. -/
theorem join_head {T : List Bytes} (hT : T ≠ []) (h : ∀ t ∈ T, t ≠ [] ∧ colon ∉ t) :
    ∃ b r, join [colon] T = b :: r ∧ b ≠ colon := by
  obtain ⟨t, T, rfl⟩ := List.exists_cons_of_ne_nil hT
  have ht := h t List.mem_cons_self
  obtain ⟨b, v, rfl⟩ := List.exists_cons_of_ne_nil ht.1
  have hb : b ≠ colon := fun e => ht.2 (by simp [e])
  cases T with
  | nil => exact ⟨b, v, rfl, hb⟩
  | cons w T => exact ⟨b, v ++ [colon] ++ join [colon] (w :: T), by simp [join], hb⟩

/-- Tokens joined by colons hold no `::`, and a rest after them keeps its own. -/
theorem doubleColons_join_append {T : List Bytes} (h : ∀ t ∈ T, t ≠ [] ∧ colon ∉ t) (p : Nat) (s : Bytes) :
    doubleColons p (join [colon] T ++ s) = doubleColons (p + (join [colon] T).length) s := by
  induction T generalizing p with
  | nil => rfl
  | cons t T ih =>
    have ht := h t List.mem_cons_self
    have hT := fun u hu => h u (List.mem_cons_of_mem _ hu)
    cases T with
    | nil => exact doubleColons_append ht.2 p s
    | cons u T =>
      rw [join_cons_cons, List.append_assoc, List.append_assoc, doubleColons_append ht.2,
        List.singleton_append]
      obtain ⟨b, r, hbr, hb⟩ := join_head (List.cons_ne_nil u T) hT
      rw [hbr, List.cons_append, doubleColons_colon_cons hb, ← List.cons_append, ← hbr, ih hT]
      congr 1
      simp only [List.length_append, List.length_cons, List.length_nil]; omega

theorem doubleColons_join {T : List Bytes} (h : ∀ t ∈ T, t ≠ [] ∧ colon ∉ t) (p : Nat) :
    doubleColons p (join [colon] T) = [] := by
  simpa [doubleColons_nil] using doubleColons_join_append h p []

theorem doubleColons_colon_join {T : List Bytes} (h : ∀ t ∈ T, t ≠ [] ∧ colon ∉ t) (p : Nat) :
    doubleColons p (colon :: join [colon] T) = [] := by
  by_cases hT : T = []
  · subst hT; rfl
  · obtain ⟨b, r, hbr, hb⟩ := join_head hT h
    rw [hbr, doubleColons_colon_cons hb, ← hbr, doubleColons_join h]

/-- A side of a `::` is joined tokens, perhaps none. -/
theorem groupsText_join {allowV4 : Bool} {t : Bytes} {G : List U16} (h : GroupsText allowV4 t G) :
    ∃ T : List Bytes, (∀ u ∈ T, u ≠ [] ∧ colon ∉ u) ∧ t = join [colon] T := by
  rcases groupsText_tokens h with rfl | ⟨T, -, hall, rfl⟩
  · exact ⟨[], by simp, rfl⟩
  · exact ⟨T, hall, rfl⟩

/-- Text with one `::` between two sides has its only double colon there (R85). -/
theorem doubleColons_sides {a b : Bool} {l r : Bytes} {L R : List U16} (hl : GroupsText a l L)
    (hr : GroupsText b r R) : doubleColons 0 (l ++ [colon, colon] ++ r) = [l.length] := by
  obtain ⟨T, hT, rfl⟩ := groupsText_join hl
  obtain ⟨U, hU, rfl⟩ := groupsText_join hr
  rw [List.append_assoc, doubleColons_join_append hT]
  simp only [List.cons_append, List.nil_append]
  rw [doubleColons, if_pos ⟨rfl, rfl⟩, doubleColons_colon_join hU]
  simp

theorem mem_doubleColons {s : Bytes} {p q : Nat} (h : q ∈ doubleColons p s) :
    ∃ l r, s = l ++ [colon, colon] ++ r ∧ q = p + l.length := by
  fun_induction doubleColons p s with
  | case1 => simp at h
  | case2 => simp at h
  | case3 p a b s hab ih =>
    rcases List.mem_cons.mp h with rfl | h
    · exact ⟨[], s, by simp [hab.1, hab.2], by simp⟩
    · obtain ⟨l, r, hs, hq⟩ := ih h
      exact ⟨a :: l, r, by rw [hs]; rfl, by simp only [List.length_cons]; omega⟩
  | case4 p a b s hab ih =>
    obtain ⟨l, r, hs, hq⟩ := ih h
    exact ⟨a :: l, r, by rw [hs]; rfl, by simp only [List.length_cons]; omega⟩

/-! ## Literals -/

theorem take_sides (l r : Bytes) : (l ++ [colon, colon] ++ r).take l.length = l := by
  rw [List.append_assoc]; exact List.take_left

theorem drop_sides (l r : Bytes) : (l ++ [colon, colon] ++ r).drop (l.length + 2) = r := by
  have : l.length + 2 = (l ++ [colon, colon]).length := by simp
  rw [this]; exact List.drop_left

theorem parseIPv6_sides {l r : Bytes} {L R : List U16} (hl : GroupsText false l L) (hr : GroupsText true r R)
    (hn : L.length + R.length < hextets) : parseIPv6 (l ++ [colon, colon] ++ r) =
      some (L ++ List.replicate (hextets - L.length - R.length) 0#16 ++ R) := by
  unfold parseIPv6
  rw [if_neg (by simp), doubleColons_sides hl hr]
  simp only [take_sides, drop_sides, groups_eq_some.mpr hl, groups_eq_some.mpr hr]
  rw [if_neg (by unfold hextets at *; omega)]

theorem parseIPv6_whole {s : Bytes} {h : List U16} (hs : s ≠ []) (hg : GroupsText true s h)
    (hn : h.length = hextets) : parseIPv6 s = some h := by
  obtain ⟨T, hT, rfl⟩ := groupsText_join hg
  unfold parseIPv6
  rw [if_neg hs, doubleColons_join hT]
  simp only [groups_eq_some.mpr hg]
  rw [if_pos hn]

/-- What `ParseIPv6` can answer (R85): the hextets of the literal's text. -/
theorem literalText_of_parseIPv6 {s : Bytes} {h : List U16} (hp : parseIPv6 s = some h) : LiteralText s h := by
  unfold parseIPv6 at hp
  split at hp
  · cases hp
  · rename_i hs
    split at hp
    · split at hp
      · rename_i G hG
        split at hp
        · rename_i hlen
          cases hp
          exact .inl ⟨hs, groups_eq_some.mp hG, hlen⟩
        · cases hp
      · cases hp
    · rename_i p hD
      obtain ⟨l, r, rfl, hpl⟩ := mem_doubleColons (hD ▸ List.mem_cons_self : p ∈ doubleColons 0 s)
      obtain rfl : p = l.length := by omega
      rw [take_sides, drop_sides] at hp
      split at hp
      · rename_i L R hL hR
        split at hp
        · cases hp
        · cases hp
          exact .inr ⟨l, r, L, R, rfl, groups_eq_some.mp hL, groups_eq_some.mp hR,
            by unfold hextets at *; omega, rfl⟩
      · cases hp
    · cases hp

theorem length_of_literalText {s : Bytes} {h : List U16} (hl : LiteralText s h) : h.length = 8 := by
  rcases hl with ⟨-, -, hn⟩ | ⟨l, r, L, R, -, -, -, hn, rfl⟩
  · exact hn
  · simp only [List.length_append, List.length_replicate]
    unfold hextets at *
    omega

theorem length_of_parseIPv6 {s : Bytes} {h : List U16} (hp : parseIPv6 s = some h) : h.length = 8 :=
  length_of_literalText (literalText_of_parseIPv6 hp)

end Sys2Proof.Machine
end

