-- ==== Sys2Proof/Laws/Address.lean ====
section
/-! SUPPORT. The texts the address engine writes: rendered hextets are text of the grammar, and the lengths
of padded fragments and reverse names. -/

namespace Sys2Proof.Machine

/-! ## Rendered hextets -/

/-- Hextets written by a form that reads back, joined by colons, are text of those hextets (R82, R84). -/
theorem groupsText_join_map {f : U16 → Bytes} (h16 : ∀ v, isH16 (f v) = true) (hv : ∀ v, hextetVal (f v) = v)
    (a : Bool) (h : List U16) : GroupsText a (join [colon] (h.map f)) h := by
  by_cases hh : h = []
  · subst hh; exact .inl ⟨rfl, rfl⟩
  · refine .inr (.inl ⟨h.map f, by simpa using hh, by simpa using fun v _ => h16 v, rfl, ?_⟩)
    simp [Function.comp_def, hv]

theorem groupsText_hex4 (a : Bool) (h : List U16) : GroupsText a (join [colon] (h.map hex4)) h :=
  groupsText_join_map isH16_hex4 hextetVal_hex4 a h

theorem groupsText_hexmin (a : Bool) (h : List U16) : GroupsText a (join [colon] (h.map hexmin)) h :=
  groupsText_join_map isH16_hexmin hextetVal_hexmin a h

theorem colon_not_mem_hex4 (v : U16) : colon ∉ hex4 v := colon_not_mem_of_isH16 (isH16_hex4 v)

theorem colon_not_mem_hexmin (v : U16) : colon ∉ hexmin v := colon_not_mem_of_isH16 (isH16_hexmin v)

theorem sum_map_length_hex4 (h : List U16) : ((h.map hex4).map List.length).sum = 4 * h.length := by
  induction h with
  | nil => rfl
  | cons v h ih => simp only [List.map_cons, List.sum_cons, ih, length_hex4, List.length_cons]; omega

theorem sum_map_length_hexmin (h : List U16) :
    h.length ≤ ((h.map hexmin).map List.length).sum ∧ ((h.map hexmin).map List.length).sum ≤ 4 * h.length := by
  induction h with
  | nil => simp
  | cons v h ih =>
    have := length_hexmin v
    simp only [List.map_cons, List.sum_cons, List.length_cons]
    omega

theorem length_renderFull_eq (h : List U16) : (renderFull h).length = 4 * h.length + (h.length - 1) := by
  simp only [renderFull, length_join, sum_map_length_hex4, List.length_map]

theorem length_renderMin_le (h : List U16) : (renderMin h).length ≤ 5 * h.length - 1 := by
  have := sum_map_length_hexmin h
  simp only [renderMin, length_join, List.length_map]
  omega

theorem length_renderMin_ge (h : List U16) : 2 * h.length - 1 ≤ (renderMin h).length := by
  have := sum_map_length_hexmin h
  simp only [renderMin, length_join, List.length_map]
  omega

/-- The nibbles of the full form (R88, R105). -/
theorem filter_renderFull (h : List U16) :
    (renderFull h).filter (fun b => decide (b ≠ colon)) = h.flatMap hex4 := by
  rw [renderFull, filter_join (by simpa using fun v _ => colon_not_mem_hex4 v), List.flatMap]

/-! ## Padded fragments -/

theorem sum_length_split (c : Byte) (s : Bytes) :
    ((split c s).map List.length).sum + ((split c s).length - 1) = s.length := by
  rw [← length_join, join_split]

theorem length_split_pos (c : Byte) (s : Bytes) : 1 ≤ (split c s).length :=
  List.length_pos_of_ne_nil (split_ne_nil c s)

theorem sum_map_length_lpad4 (T : List Bytes) :
    ((T.map lpad4).map List.length).sum ≤ (T.map List.length).sum + 4 * T.length ∧
    4 * T.length ≤ ((T.map lpad4).map List.length).sum := by
  induction T with
  | nil => simp
  | cons t T ih =>
    have := length_lpad4 t
    simp only [List.map_cons, List.sum_cons, List.length_cons]
    omega

theorem length_expandIncomplete_le (s : Bytes) : (expandIncomplete s).length ≤ 5 * s.length + 4 := by
  have h1 := sum_length_split colon s
  have h2 := (sum_map_length_lpad4 (split colon s)).1
  simp only [expandIncomplete, length_join, List.length_map]
  omega

/-- A padded fragment without its colons is its padded tokens, one after another (R92, R105). -/
theorem filter_expandIncomplete (s : Bytes) :
    (expandIncomplete s).filter (fun b => decide (b ≠ colon)) = ((split colon s).map lpad4).flatten := by
  rw [expandIncomplete, filter_join]
  intro t ht
  obtain ⟨u, hu, rfl⟩ := List.mem_map.mp ht
  exact colon_not_mem_lpad4 (not_mem_of_mem_split hu)

/-- The bytes a padded fragment has besides its colons (R110). -/
theorem length_filter_expandIncomplete (s : Bytes) :
    4 ≤ ((expandIncomplete s).filter (fun b => decide (b ≠ colon))).length ∧
    ((expandIncomplete s).filter (fun b => decide (b ≠ colon))).length ≤ 4 * s.length + 4 := by
  have h1 := sum_length_split colon s
  have h2 := sum_map_length_lpad4 (split colon s)
  have h3 := length_split_pos colon s
  rw [filter_expandIncomplete, List.length_flatten]
  omega

/-! ## Reverse names -/

theorem length_join_chars (d : Bytes) : (join [dot] (chars d)).length = 2 * d.length - 1 := by
  rw [length_join]
  have : ((chars d).map List.length).sum = d.length := by
    induction d with
    | nil => rfl
    | cons b d ih =>
      rw [show chars (b :: d) = [b] :: chars d from rfl]
      simp only [List.map_cons, List.sum_cons, ih, List.length_cons, List.length_nil]; omega
  rw [this]
  simp only [chars, List.length_map]
  omega

theorem length_ip6Arpa : ip6Arpa.length = 10 := by decide

theorem length_inAddrArpa : inAddrArpa.length = 14 := by decide

/-- The length of a reverse name (R110): two bytes a nibble, less one, and the suffix. -/
theorem length_nibbleName (e : Bytes) :
    (nibbleName e).length = 2 * (e.filter (fun b => decide (b ≠ colon))).length - 1 + 10 := by
  rw [nibbleName, List.length_append, length_join_chars, length_ip6Arpa, List.length_reverse]

/-! ## Zero runs -/

/-- How far the longest-run loop can have got (R93): whatever it answers was the best before, or is a run of
zeros at or after index `i`. -/
theorem longestRunFrom_cases (z : List Bool) (fuel i : Nat) (best : Option Nat × Nat) :
    longestRunFrom z fuel i best = best ∨
    ∃ st n, longestRunFrom z fuel i best = (some st, n) ∧ best.2 ≤ n ∧ 1 ≤ n ∧ i ≤ st ∧ st + n ≤ z.length ∧
      ∀ k, st ≤ k → k < st + n → z[k]? = some true := by
  induction fuel generalizing i best with
  | zero => exact .inl rfl
  | succ fuel ih =>
    unfold longestRunFrom
    split
    · rename_i hi
      split
      · rename_i hz
        obtain ⟨n, hn⟩ : ∃ n, n = ((z.drop i).takeWhile id).length := ⟨_, rfl⟩
        simp only [← hn]
        have hpos : 1 ≤ n := by
          rw [hn, List.drop_eq_getElem_cons hi, List.takeWhile_cons_of_pos]
          · simp
          · simpa [List.getD_eq_getElem?_getD, List.getElem?_eq_getElem hi] using hz
        have hle : i + n ≤ z.length := by
          have := (List.takeWhile_sublist (l := z.drop i) id).length_le
          rw [List.length_drop] at this
          omega
        have hones : ∀ k, i ≤ k → k < i + n → z[k]? = some true := by
          intro k h1 h2
          have hmem : (z.drop i)[k - i]? = some true := by
            have hp := List.takeWhile_prefix (l := z.drop i) id
            obtain ⟨r, hr⟩ := hp
            rw [← hr, List.getElem?_append_left (by omega)]
            have hlt : k - i < ((z.drop i).takeWhile id).length := by omega
            have hall := List.all_takeWhile (l := z.drop i) (p := id)
            rw [List.all_eq_true] at hall
            rw [List.getElem?_eq_getElem hlt]
            exact congrArg some (hall _ (List.getElem_mem hlt))
          rw [List.getElem?_drop] at hmem
          rwa [show i + (k - i) = k by omega] at hmem
        rcases ih (i + n) (if best.2 ≤ n then (some i, n) else best) with h | ⟨st, m, h, hm, hm1, hst, hlen, hz'⟩
        · rw [h]
          split
          · exact .inr ⟨i, n, rfl, ‹_›, hpos, le_rfl, hle, hones⟩
          · exact .inl rfl
        · rw [h]
          refine .inr ⟨st, m, rfl, ?_, hm1, by omega, hlen, hz'⟩
          split at hm <;> omega
      · rcases ih (i + 1) best with h | ⟨st, m, h, hm, hm1, hst, hlen, hz'⟩
        · exact .inl h
        · exact .inr ⟨st, m, h, hm, hm1, by omega, hlen, hz'⟩
    · exact .inl rfl

/-- The run CONTRACT replaces, if any, lies inside the hextets, is not empty and is all zeros (R93). -/
theorem longestZeroRun_zeros {h : List U16} {st n : Nat} (hr : longestZeroRun h = (some st, n)) :
    1 ≤ n ∧ st + n ≤ h.length ∧ (h.drop st).take n = List.replicate n 0#16 := by
  rcases longestRunFrom_cases (h.map (fun v => decide (v = 0#16))) h.length 0 (none, 0) with
    hb | ⟨st', n', hb, -, hn, -, hlen, hz⟩
  · rw [longestZeroRun, hb] at hr; simp at hr
  · rw [longestZeroRun, hb] at hr
    obtain ⟨h1, rfl⟩ := Prod.mk.inj hr
    obtain rfl := Option.some.inj h1
    rw [List.length_map] at hlen
    refine ⟨hn, hlen, ?_⟩
    apply List.ext_getElem?
    intro k
    by_cases hk : k < n'
    · have := hz (st' + k) (by omega) (by omega)
      rw [List.getElem?_map] at this
      obtain ⟨v, hv, hv0⟩ := Option.map_eq_some_iff.mp this
      rw [List.getElem?_take_of_lt hk, List.getElem?_drop, hv, List.getElem?_replicate_of_lt hk]
      exact congrArg some (by simpa using hv0)
    · rw [List.getElem?_eq_none (by simp; omega), List.getElem?_eq_none (by simp; omega)]

/-- The hextets before the run, the run's zeros, and the hextets after it are all the hextets. -/
theorem hextets_around_run {h : List U16} {st n : Nat} (hr : longestZeroRun h = (some st, n)) :
    h.take st ++ List.replicate n 0#16 ++ h.drop (st + n) = h := by
  obtain ⟨-, -, hz⟩ := longestZeroRun_zeros hr
  rw [← hz, ← List.take_add, List.take_append_drop]

end Sys2Proof.Machine
end

