-- ==== Sys2Proof/Laws/Bitmap.lean ====
section
/-! SUPPORT. The bits of a bitmap byte, the codes of a window, and the encoder's and decoder's loops. -/

namespace Sys2Proof.Machine

/-! ## Bits -/

theorem bitMask_mod (i : Nat) : bitMask (i % 8) = bitMask i := by simp [bitMask]

/-- Masking with bit `q` of a bitmap byte looks at value bit `7 - q` (R12, R44). -/
theorem and_bitMask_ne_zero (b : Byte) {q : Nat} (hq : q < 8) :
    b &&& bitMask q ≠ 0x00#8 ↔ b.getLsbD (7 - q) = true := by
  have key : ∀ j, (bitMask q).getLsbD j = decide (j = 7 - q) := by
    intro j
    rw [bitMask, Nat.mod_eq_of_lt hq, BitVec.getLsbD_ushiftRight]
    interval_cases q <;> (by_cases hj : j < 8 <;> [interval_cases j <;> decide; skip]) <;>
      (rw [BitVec.getLsbD_of_ge _ _ (by omega)]; symm; rw [decide_eq_false_iff_not]; omega)
  constructor
  · intro h
    by_contra hb
    refine h (BitVec.eq_of_getLsbD_eq (fun j hj => ?_))
    rw [BitVec.getLsbD_and, key]
    by_cases hjq : j = 7 - q
    · subst hjq; simp [Bool.eq_false_iff.mpr hb]
    · simp [hjq]
  · intro hb h
    have := congrArg (fun v : Byte => v.getLsbD (7 - q)) h
    simp only [BitVec.getLsbD_and, key, hb] at this
    simp at this

theorem toNat_windowOf (c : U16) : (windowOf c).toNat = c.toNat / 256 := by
  have := c.isLt
  simp only [windowOf, BitVec.extractLsb'_toNat, Nat.shiftRight_eq_div_pow]
  omega

theorem toNat_localBit (c : U16) : (localBit c).toNat = c.toNat % 256 := by
  simp [localBit, BitVec.extractLsb'_toNat]

theorem toNat_codeAt {w : Byte} {k q : Nat} (h : 8 * k + q < 256) :
    (codeAt w k q).toNat = 256 * w.toNat + 8 * k + q := by
  have := w.isLt
  rw [codeAt, BitVec.toNat_ofNat, Nat.mod_eq_of_lt]
  omega

theorem windowOf_codeAt {w : Byte} {k q : Nat} (h : 8 * k + q < 256) : windowOf (codeAt w k q) = w := by
  apply BitVec.eq_of_toNat_eq
  rw [toNat_windowOf, toNat_codeAt h]
  omega

theorem toNat_localBit_codeAt {w : Byte} {k q : Nat} (h : 8 * k + q < 256) :
    (localBit (codeAt w k q)).toNat = 8 * k + q := by
  rw [toNat_localBit, toNat_codeAt h]
  omega

/-- A code is its window and its local bit (R123). -/
theorem codeAt_windowOf (c : U16) :
    codeAt (windowOf c) ((localBit c).toNat / 8) ((localBit c).toNat % 8) = c := by
  have := (localBit c).isLt
  apply BitVec.eq_of_toNat_eq
  rw [toNat_codeAt (by omega), toNat_windowOf, toNat_localBit]
  omega

theorem eq_of_window_local {c d : U16} (hw : windowOf c = windowOf d)
    (hl : (localBit c).toNat = (localBit d).toNat) : c = d := by
  rw [← codeAt_windowOf c, ← codeAt_windowOf d, hw, hl]

/-! ## The codes of bitmap bytes -/

theorem mem_byteCodes {w : Byte} {k : Nat} {b : Byte} {c : U16} :
    c ∈ byteCodes w k b ↔ ∃ q, q < 8 ∧ b &&& bitMask q ≠ 0x00#8 ∧ c = codeAt w k q := by
  simp only [byteCodes, List.mem_map, List.mem_filter, List.mem_range, decide_eq_true_eq]
  constructor
  · rintro ⟨q, ⟨hq, hb⟩, rfl⟩; exact ⟨q, hq, hb, rfl⟩
  · rintro ⟨q, hq, hb, rfl⟩; exact ⟨q, ⟨hq, hb⟩, rfl⟩

theorem mem_bitmapCodes {w : Byte} {bm : Bytes} {k : Nat} {c : U16} :
    c ∈ bitmapCodes w k bm ↔
      ∃ j b q, bm[j]? = some b ∧ q < 8 ∧ b &&& bitMask q ≠ 0x00#8 ∧ c = codeAt w (k + j) q := by
  induction bm generalizing k with
  | nil => simp [bitmapCodes]
  | cons a bm ih =>
    rw [bitmapCodes, List.mem_append, mem_byteCodes, ih]
    constructor
    · rintro (⟨q, hq, hb, rfl⟩ | ⟨j, b, q, hj, hq, hb, rfl⟩)
      · exact ⟨0, a, q, rfl, hq, hb, rfl⟩
      · exact ⟨j + 1, b, q, by simpa using hj, hq, hb, by congr 1; omega⟩
    · rintro ⟨j, b, q, hj, hq, hb, rfl⟩
      cases j with
      | zero =>
        obtain rfl : a = b := by simpa using hj
        exact .inl ⟨q, hq, hb, rfl⟩
      | succ j => exact .inr ⟨j, b, q, by simpa using hj, hq, hb, by congr 1; omega⟩

/-- The codes of a window's bitmap are those with its number whose local bit is set (R44, R126). -/
theorem mem_bitmapCodes_iff {w : Byte} {bm : Bytes} (hlen : bm.length ≤ winMaxBytes) {c : U16} :
    c ∈ bitmapCodes w 0 bm ↔ windowOf c = w ∧
      ∃ b, bm[(localBit c).toNat / 8]? = some b ∧ b &&& bitMask (localBit c).toNat ≠ 0x00#8 := by
  unfold winMaxBytes at hlen
  rw [mem_bitmapCodes]
  constructor
  · rintro ⟨j, b, q, hj, hq, hb, rfl⟩
    have hjlt : j < bm.length := by
      by_contra hn
      rw [List.getElem?_eq_none (by omega)] at hj
      cases hj
    have h256 : 8 * (0 + j) + q < 256 := by omega
    refine ⟨windowOf_codeAt h256, b, ?_, ?_⟩
    · rw [toNat_localBit_codeAt h256]
      rwa [show (8 * (0 + j) + q) / 8 = j by omega]
    · rw [toNat_localBit_codeAt h256, ← bitMask_mod]
      rwa [show (8 * (0 + j) + q) % 8 = q by omega]
  · rintro ⟨rfl, b, hb, hm⟩
    refine ⟨_, b, (localBit c).toNat % 8, hb, Nat.mod_lt _ (by omega), ?_, ?_⟩
    · rwa [bitMask_mod]
    · rw [Nat.zero_add, codeAt_windowOf]

theorem wf_byteCodes {w : Byte} {k : Nat} {b : Byte} (hk : k < 32) : TypeSet.wf (byteCodes w k b) := by
  unfold byteCodes TypeSet.wf
  rw [List.pairwise_map]
  refine List.Pairwise.imp_of_mem ?_ (List.pairwise_lt_range.filter _)
  intro p q hp hq hlt
  have hp := List.mem_range.mp (List.mem_of_mem_filter hp)
  have hq := List.mem_range.mp (List.mem_of_mem_filter hq)
  rw [toNat_codeAt (by omega), toNat_codeAt (by omega)]
  omega

/-- The codes of a window come out strictly ascending (R127). -/
theorem wf_bitmapCodes {w : Byte} {bm : Bytes} {k : Nat} (h : k + bm.length ≤ 32) :
    TypeSet.wf (bitmapCodes w k bm) := by
  induction bm generalizing k with
  | nil => simp [bitmapCodes, TypeSet.wf]
  | cons b bm ih =>
    simp only [List.length_cons] at h
    rw [bitmapCodes]
    refine List.pairwise_append.mpr ⟨wf_byteCodes (by omega), ih (by omega), ?_⟩
    intro c hc d hd
    obtain ⟨q, hq, -, rfl⟩ := mem_byteCodes.mp hc
    obtain ⟨j, b', q', hj, hq', -, rfl⟩ := mem_bitmapCodes.mp hd
    have hjlt : j < bm.length := by
      by_contra hn
      rw [List.getElem?_eq_none (by omega)] at hj
      cases hj
    rw [toNat_codeAt (by omega), toNat_codeAt (by omega)]
    omega

/-! ## The decoder's loop -/

/-- The codes of a list of windows (R126). -/
def windowCodes (W : List (Byte × Bytes)) : TypeSet := W.flatMap (fun w => bitmapCodes w.1 0 w.2)

/-- No window number is at or below the last one read (R126, case (b)). -/
def AfterLast (last : Option Byte) (W : List (Byte × Bytes)) : Prop :=
  ∀ l ∈ last, ∀ w ∈ W, l.toNat < w.1.toNat

theorem mem_windowCodes {W : List (Byte × Bytes)} (h : WindowsOk W) {c : U16} :
    c ∈ windowCodes W ↔ WindowsHave W c := by
  simp only [windowCodes, List.mem_flatMap, WindowsHave]
  constructor
  · rintro ⟨w, hw, hc⟩
    obtain ⟨h1, h2⟩ := (mem_bitmapCodes_iff (h.2 w hw).2).mp hc
    exact ⟨w, hw, h1.symm, h2⟩
  · rintro ⟨w, hw, h1, h2⟩
    exact ⟨w, hw, (mem_bitmapCodes_iff (h.2 w hw).2).mpr ⟨h1.symm, h2⟩⟩

theorem windowsOk_cons {w : Byte × Bytes} {W : List (Byte × Bytes)} :
    WindowsOk (w :: W) ↔ (1 ≤ w.2.length ∧ w.2.length ≤ winMaxBytes) ∧ AfterLast (some w.1) W ∧ WindowsOk W := by
  simp only [WindowsOk, AfterLast, List.pairwise_cons, List.forall_mem_cons, Option.mem_def,
    Option.some.injEq]
  constructor
  · rintro ⟨⟨h1, h2⟩, h3, h4⟩
    exact ⟨h3, fun l hl => by subst hl; exact h1, h2, h4⟩
  · rintro ⟨h3, h1, h2, h4⟩
    exact ⟨⟨h1 _ rfl, h2⟩, h3, h4⟩

/-- The codes of accepted windows come out strictly ascending (R127). -/
theorem wf_windowCodes {W : List (Byte × Bytes)} (h : WindowsOk W) : TypeSet.wf (windowCodes W) := by
  induction W with
  | nil => simp [windowCodes, TypeSet.wf]
  | cons w W ih =>
    obtain ⟨hlen, hlast, hW⟩ := windowsOk_cons.mp h
    unfold winMaxBytes at hlen
    rw [windowCodes, List.flatMap_cons]
    refine List.pairwise_append.mpr ⟨wf_bitmapCodes (by omega), ih hW, ?_⟩
    intro c hc d hd
    obtain ⟨hcw, -⟩ := (mem_bitmapCodes_iff (by unfold winMaxBytes; omega)).mp hc
    obtain ⟨v, hv, hvw, -⟩ := (mem_windowCodes hW).mp hd
    have hlt := hlast _ rfl v hv
    rw [← hcw, hvw, toNat_windowOf, toNat_windowOf] at hlt
    omega

theorem wireBytes_cons (w : Byte × Bytes) (W : List (Byte × Bytes)) :
    wireBytes (w :: W) = w.1 :: BitVec.ofNat 8 w.2.length :: (w.2 ++ wireBytes W) := by
  simp [wireBytes]

theorem length_le_wireBytes (W : List (Byte × Bytes)) : W.length ≤ (wireBytes W).length := by
  induction W with
  | nil => simp
  | cons w W ih => rw [wireBytes_cons]; simp only [List.length_cons, List.length_append]; omega

theorem option_any_le_eq_false {last : Option Byte} {w : Byte} :
    last.any (fun l => decide (w.toNat ≤ l.toNat)) = false ↔ ∀ l ∈ last, l.toNat < w.toNat := by
  cases last <;> simp

/-- The decoder reads accepted windows, and gives their codes (R126). -/
theorem decodeWindows_wireBytes {W : List (Byte × Bytes)} (h : WindowsOk W) {last : Option Byte}
    (hl : AfterLast last W) {fuel : Nat} (hf : W.length ≤ fuel) :
    decodeWindows fuel last (wireBytes W) = some (windowCodes W) := by
  induction W generalizing last fuel with
  | nil => cases fuel <;> rfl
  | cons w W ih =>
    obtain ⟨hlen, hlast, hW⟩ := windowsOk_cons.mp h
    have hlen' := hlen
    unfold winMaxBytes at hlen'
    cases fuel with
    | zero => simp at hf
    | succ fuel =>
      rw [wireBytes_cons, decodeWindows,
        if_neg (by rw [option_any_le_eq_false.mpr (fun l hm => hl l hm w List.mem_cons_self)]; decide)]
      have hn : (BitVec.ofNat 8 w.2.length).toNat = w.2.length := by
        rw [BitVec.toNat_ofNat]; omega
      rw [hn, if_neg (by omega), if_neg (by simp), List.take_left, List.drop_left,
        ih hW hlast (by simpa using hf)]
      rfl

/-- What the decoder can answer (R126): the codes of the accepted windows its operand is made of. -/
theorem windows_of_decodeWindows {fuel : Nat} {last : Option Byte} {b : Bytes} {S : TypeSet}
    (h : decodeWindows fuel last b = some S) :
    ∃ W, WindowsOk W ∧ AfterLast last W ∧ b = wireBytes W ∧ S = windowCodes W := by
  fun_induction decodeWindows fuel last b generalizing S with
  | case1 => exact ⟨[], ⟨by simp, by simp⟩, by simp [AfterLast], rfl, (Option.some.inj h).symm⟩
  | case2 => cases h
  | case3 => cases h
  | case4 => cases h
  | case5 => cases h
  | case6 => cases h
  | case7 fuel last w n rest h1 h2 h3 ih =>
    obtain ⟨S', hS', rfl⟩ := Option.map_eq_some_iff.mp h
    obtain ⟨W, hW, hlast, hb, rfl⟩ := ih hS'
    have h1 := option_any_le_eq_false.mp (Bool.eq_false_iff.mpr h1)
    have hlen : (rest.take n.toNat).length = n.toNat := by rw [List.length_take]; omega
    refine ⟨(w, rest.take n.toNat) :: W, windowsOk_cons.mpr ⟨by simp only [hlen]; omega, hlast, hW⟩, ?_, ?_, rfl⟩
    · intro l hl v hv
      rcases List.mem_cons.mp hv with rfl | hv
      · exact h1 l hl
      · exact lt_trans (h1 l hl) (hlast w rfl v hv)
    · rw [wireBytes_cons, ← hb, List.take_append_drop]
      simp [hlen]

/-- `TBMDEC` on accepted windows (R126). -/
theorem decodeSet_wireBytes {W : List (Byte × Bytes)} (h : WindowsOk W) :
    decodeSet (wireBytes W) = some (windowCodes W) :=
  decodeWindows_wireBytes h (by simp [AfterLast]) (length_le_wireBytes W)

/-- What `decodeSet` can answer (R126). -/
theorem windows_of_decodeSet {b : Bytes} {S : TypeSet} (h : decodeSet b = some S) :
    ∃ W, WindowsOk W ∧ b = wireBytes W ∧ S = windowCodes W := by
  obtain ⟨W, hW, -, hb, hS⟩ := windows_of_decodeWindows h
  exact ⟨W, hW, hb, hS⟩

/-! ## The encoder's bitmaps -/

theorem le_foldl_max (L : List Nat) (m : Nat) : m ≤ L.foldl max m ∧ ∀ i ∈ L, i ≤ L.foldl max m := by
  induction L generalizing m with
  | nil => simp
  | cons i L ih =>
    obtain ⟨h1, h2⟩ := ih (max m i)
    rw [List.foldl_cons]
    refine ⟨by omega, fun j hj => ?_⟩
    rcases List.mem_cons.mp hj with rfl | hj
    · omega
    · exact h2 j hj

theorem foldl_max_mem (L : List Nat) (m : Nat) : L.foldl max m = m ∨ L.foldl max m ∈ L := by
  induction L generalizing m with
  | nil => exact .inl rfl
  | cons i L ih =>
    rw [List.foldl_cons]
    rcases ih (max m i) with h | h
    · rcases Nat.le_total m i with hm | hm
      · rw [Nat.max_eq_right hm] at h ⊢; exact .inr (by rw [h]; simp)
      · rw [Nat.max_eq_left hm] at h ⊢; exact .inl h
    · exact .inr (List.mem_cons_of_mem _ h)

theorem le_highestBit {L : List Nat} {i : Nat} (h : i ∈ L) : i ≤ highestBit L := (le_foldl_max L 0).2 i h

theorem highestBit_mem {L : List Nat} (h : L ≠ []) : highestBit L ∈ L := by
  rcases foldl_max_mem L 0 with h0 | hm
  · obtain ⟨i, L, rfl⟩ := List.exists_cons_of_ne_nil h
    have := le_highestBit (L := i :: L) List.mem_cons_self
    rw [highestBit, h0] at this ⊢
    obtain rfl : i = 0 := by omega
    exact List.mem_cons_self
  · exact hm

theorem length_setBits (L : List Nat) (bm : Bytes) :
    (L.foldl (fun bm i => bm.modify (i / 8) (fun b => b ||| bitMask i)) bm).length = bm.length := by
  induction L generalizing bm with
  | nil => rfl
  | cons i L ih => rw [List.foldl_cons, ih, List.length_modify]

@[simp] theorem length_bitmapBytes (n : Nat) (L : List Nat) : (bitmapBytes n L).length = n := by
  rw [bitmapBytes, length_setBits, List.length_replicate]

theorem or_and_bitMask {b : Byte} {i q : Nat} (hq : q < 8) :
    (b ||| bitMask i) &&& bitMask q ≠ 0x00#8 ↔ b &&& bitMask q ≠ 0x00#8 ∨ i % 8 = q := by
  have hi : i % 8 < 8 := Nat.mod_lt _ (by omega)
  rw [and_bitMask_ne_zero _ hq, and_bitMask_ne_zero _ hq, BitVec.getLsbD_or, Bool.or_eq_true]
  refine or_congr_right ?_
  rw [← bitMask_mod]
  generalize i % 8 = p at hi
  interval_cases p <;> interval_cases q <;> decide

/-- Bit `q` of byte `k` after the given bits are set in a bitmap (R124). -/
theorem setBits_bit (L : List Nat) (bm : Bytes) {k q : Nat} (hq : q < 8) (hk : k < bm.length) :
    (∃ b, (L.foldl (fun bm i => bm.modify (i / 8) (fun b => b ||| bitMask i)) bm)[k]? = some b ∧
      b &&& bitMask q ≠ 0x00#8) ↔
    (∃ b, bm[k]? = some b ∧ b &&& bitMask q ≠ 0x00#8) ∨ 8 * k + q ∈ L := by
  induction L generalizing bm with
  | nil => simp
  | cons i L ih =>
    rw [List.foldl_cons, ih _ (by simpa using hk)]
    rw [List.getElem?_modify, List.getElem?_eq_getElem hk, List.mem_cons]
    by_cases hik : i / 8 = k
    · simp only [hik, if_true, Option.map_eq_map, Option.map_some, Option.some.injEq, exists_eq_left', or_and_bitMask hq, or_assoc]
      refine or_congr_right (or_congr_left ?_)
      omega
    · simp only [hik, if_false, Option.map_eq_map, Option.map_some, Option.some.injEq, exists_eq_left']
      refine or_congr_right ?_
      rw [or_iff_right (by omega)]

/-- The bits of the encoder's bitmap are exactly the given ones (R124). -/
theorem bitmapBytes_bit {n : Nat} {L : List Nat} {i : Nat} (h : i / 8 < n) :
    (∃ b, (bitmapBytes n L)[i / 8]? = some b ∧ b &&& bitMask i ≠ 0x00#8) ↔ i ∈ L := by
  have hq : i % 8 < 8 := Nat.mod_lt _ (by omega)
  rw [bitmapBytes, ← bitMask_mod, setBits_bit L _ hq (by simpa using h),
    List.getElem?_replicate_of_lt h]
  rw [show 8 * (i / 8) + i % 8 = i by omega]
  refine or_iff_right ?_
  rintro ⟨b, hb, hne⟩
  obtain rfl : b = 0x00#8 := by simpa using hb.symm
  exact hne (by simp)

/-- A bitmap is determined by its length and its bits. -/
theorem bitmap_ext {bm bm' : Bytes} (hlen : bm.length = bm'.length)
    (h : ∀ k q, k < bm.length → q < 8 → ((∃ b, bm[k]? = some b ∧ b &&& bitMask q ≠ 0x00#8) ↔
      (∃ b, bm'[k]? = some b ∧ b &&& bitMask q ≠ 0x00#8))) : bm = bm' := by
  apply List.ext_getElem hlen
  intro k hk hk'
  apply BitVec.eq_of_getLsbD_eq
  intro j hj
  have := h k (7 - j) hk (by omega)
  simp only [List.getElem?_eq_getElem hk, List.getElem?_eq_getElem hk', Option.some.injEq, exists_eq_left',
    and_bitMask_ne_zero _ (show 7 - j < 8 by omega), show 7 - (7 - j) = j by omega] at this
  exact Bool.eq_iff_iff.mpr this

/-! ## The encoder's windows -/

theorem mem_localBits {S : TypeSet} {w : Byte} {i : Nat} :
    i ∈ localBits S w ↔ ∃ c ∈ S, windowOf c = w ∧ (localBit c).toNat = i := by
  simp only [localBits, List.mem_map, List.mem_filter, decide_eq_true_eq]
  constructor
  · rintro ⟨c, ⟨hc, hw⟩, hi⟩; exact ⟨c, hc, hw, hi⟩
  · rintro ⟨c, hc, hw, hi⟩; exact ⟨c, ⟨hc, hw⟩, hi⟩

theorem localBit_mem_localBits {S : TypeSet} {c : U16} :
    (localBit c).toNat ∈ localBits S (windowOf c) ↔ c ∈ S := by
  rw [mem_localBits]
  exact ⟨fun ⟨d, hd, hw, hi⟩ => eq_of_window_local hw hi ▸ hd, fun h => ⟨c, h, rfl, rfl⟩⟩

theorem localBits_lt {S : TypeSet} {w : Byte} {i : Nat} (h : i ∈ localBits S w) : i < 256 := by
  obtain ⟨c, -, -, rfl⟩ := mem_localBits.mp h
  exact (localBit c).isLt

/-- The window the encoder writes for number `w`, if it writes one (R124). -/
def windowFor (S : TypeSet) (w : Byte) : Option (Byte × Bytes) :=
  if localBits S w = [] then none
  else some (w, bitmapBytes (highestBit (localBits S w) / 8 + 1) (localBits S w))

/-- The windows the encoder writes (R124). -/
def windowsOf (S : TypeSet) : List (Byte × Bytes) :=
  (List.range 256).filterMap (fun w => windowFor S (BitVec.ofNat 8 w))

theorem encodeWindow_eq (S : TypeSet) (w : Byte) : encodeWindow S w = wireBytes (windowFor S w).toList := by
  unfold encodeWindow windowFor
  split
  · rename_i h; simp [h, wireBytes]
  · rename_i i L h
    simp [h, wireBytes]

theorem wireBytes_append (V W : List (Byte × Bytes)) : wireBytes (V ++ W) = wireBytes V ++ wireBytes W := by
  simp [wireBytes]

/-- The encoder's result is the wire form of its windows (R124). -/
theorem encodeSet_eq_wireBytes (S : TypeSet) : encodeSet S = wireBytes (windowsOf S) := by
  unfold encodeSet windowsOf
  induction List.range 256 with
  | nil => rfl
  | cons w l ih =>
    rw [List.flatMap_cons, ih, encodeWindow_eq, ← wireBytes_append, List.filterMap_cons]
    cases windowFor S (BitVec.ofNat 8 w) <;> rfl

theorem mem_windowsOf {S : TypeSet} {v : Byte × Bytes} :
    v ∈ windowsOf S ↔ localBits S v.1 ≠ [] ∧
      v.2 = bitmapBytes (highestBit (localBits S v.1) / 8 + 1) (localBits S v.1) := by
  simp only [windowsOf, windowFor, List.mem_filterMap, List.mem_range]
  constructor
  · rintro ⟨w, hw, h⟩
    split at h
    · cases h
    · rename_i hne
      cases h
      exact ⟨hne, rfl⟩
  · rintro ⟨hne, hv⟩
    refine ⟨v.1.toNat, v.1.isLt, ?_⟩
    rw [BitVec.ofNat_toNat, BitVec.setWidth_eq, if_neg hne]
    exact congrArg some (Prod.ext rfl hv.symm)

theorem windowFor_fst {S : TypeSet} {w : Byte} {v : Byte × Bytes} (h : windowFor S w = some v) : v.1 = w := by
  unfold windowFor at h
  split at h
  · cases h
  · cases h; rfl

theorem highestBit_lt {S : TypeSet} {w : Byte} (h : localBits S w ≠ []) : highestBit (localBits S w) < 256 :=
  localBits_lt (highestBit_mem h)

end Sys2Proof.Machine
end

