-- ==== Sys2Proof/Laws/Decode.lean ====
section
/-! SUPPORT. Decoding and encoding of command words. -/

namespace Sys2Proof

theorem opcodeField_encode (i : Instr) : opcodeField (encode i) = opcodeOf i := by cases i <;> rfl

theorem zeroField_encode (i : Instr) : zeroField (encode i) = 0#24 := by cases i <;> rfl

/-- A word is its two fields (R60). -/
theorem word_eq_fields (v : U32) : v = zeroField v ++ opcodeField v := by
  apply BitVec.eq_of_getLsbD_eq
  intro i hi
  rw [BitVec.getLsbD_append]
  by_cases h : i < 8
  · simp [opcodeField, h]
  · simp [zeroField, h, show i - 8 < 24 by omega, show 8 + (i - 8) = i by omega]

theorem ofOpcode_eq_some {b : Byte} {i : Instr} : ofOpcode b = some i ↔ b = opcodeOf i := by
  constructor
  · unfold ofOpcode
    intro h
    repeat' split at h
    all_goals first | (cases h; assumption) | cases h
  · rintro rfl
    cases i <;> rfl

/-- The words that decode to a command are exactly its encoding (R62, R67). -/
theorem decodeWord_eq_ok {v : U32} {i : Instr} : decodeWord v = .ok i ↔ v = encode i := by
  constructor
  · intro h
    unfold decodeWord at h
    split at h
    · cases h
    · rename_i hz
      split at h
      · rename_i j hj
        cases h
        rw [word_eq_fields v, not_not.mp hz, ofOpcode_eq_some.mp hj]
        rfl
      · cases h
  · rintro rfl
    cases i <;> rfl

end Sys2Proof
end

