-- ==== Sys2Proof/Laws/PerInstr.lean ====
section
/-! SUPPORT. The family DecodeEncode: every command is well-formed and its word decodes to it. -/

namespace Sys2Proof.Laws.DecodeEncode

/-- The command is well-formed, and decoding its encoding gives it back. -/
def Statement (i : Instr) : Prop := i.wellFormed = true ∧ decodeWord (encode i) = .ok i

theorem expand : Statement .expand := ⟨rfl, rfl⟩
theorem expandi : Statement .expandi := ⟨rfl, rfl⟩
theorem contract : Statement .contract := ⟨rfl, rfl⟩
theorem rev4 : Statement .rev4 := ⟨rfl, rfl⟩
theorem rev6 : Statement .rev6 := ⟨rfl, rfl⟩
theorem tbmenc : Statement .tbmenc := ⟨rfl, rfl⟩
theorem tbmdec : Statement .tbmdec := ⟨rfl, rfl⟩
theorem tsetclr : Statement .tsetclr := ⟨rfl, rfl⟩

end Sys2Proof.Laws.DecodeEncode
end

