-- ==== Sys2Proof/Laws/Port.lean ====
section
/-! SUPPORT. What a step can do: one inversion lemma for a transaction, one for a step. -/

namespace Sys2Proof.Machine

/-- What the write of a command word leaves (R67): a completion with the word's low byte. -/
theorem runCommand_eq (v : U32) (s : State) :
    (∃ i, decodeWord v = .ok i ∧ v = encode i ∧
      runCommand v s = .next (complete (opcodeOf i) (commandFallback i s) (commandOutcome i s) s)) ∨
    (∃ e, decodeWord v = .error e ∧
      runCommand v s = .next (complete (opcodeField v) false (.error .illegalCommand) s)) := by
  unfold runCommand
  cases h : decodeWord v with
  | ok i => exact .inl ⟨i, rfl, decodeWord_eq_ok.mp h, exec_eq_complete i s⟩
  | error e => exact .inr ⟨e, rfl, rfl⟩

/-- The effect of each transaction that has one (R42), on the state that no longer counts it as pending. -/
def TxnEffect (cfg : Config) (s t : State) : HostTxn → Prop
  | .wrin i b => i < cfg.inMax ∧ t = (s.setInBuf (s.inBuf.write i b)).setReply .nothing
  | .rdin i => i < cfg.inMax ∧ t = s.setReply (.byte (s.inBuf.read i))
  | .rdout i => i < cfg.outMax ∧ t = s.setReply (.byte (s.outBuf.read i))
  | .wrout _ _ => False
  | .wrtset c v => t = (s.setTset (s.tset.write c v)).setReply .nothing
  | .rdtset c => t = s.setReply (.bit (s.tset.test c))
  | .wrcsr n v =>
    (n = 0 ∧ runCommand v (s.setReply .nothing) = .next t) ∨ ((n = 1 ∨ n = 3) ∧ t = s.setReply .nothing) ∨
      (n = 2 ∧ t = writeInLen cfg.inMax v (s.setReply .nothing))
  | .rdcsr n => ∃ v, readCsr s n = some v ∧ t = s.setReply (.word v)
  | .reset => t = resetBlock s

/-- Everything a transaction can do when it ends in a next state. -/
theorem txnEffect_of_transact {cfg : Config} {x : HostTxn} {s t : State} (h : transact cfg x s = .next t) :
    TxnEffect cfg s t x := by
  unfold transact at h
  cases x with
  | wrin i b =>
    simp only at h
    split at h
    · exact ⟨‹_›, (Host.Outcome.next.inj h).symm⟩
    · cases h
  | rdin i =>
    simp only at h
    split at h
    · exact ⟨‹_›, (Host.Outcome.next.inj h).symm⟩
    · cases h
  | rdout i =>
    simp only at h
    split at h
    · exact ⟨‹_›, (Host.Outcome.next.inj h).symm⟩
    · cases h
  | wrout i b => cases h
  | wrtset c v => exact (Host.Outcome.next.inj h).symm
  | rdtset c => exact (Host.Outcome.next.inj h).symm
  | wrcsr n v =>
    simp only [writeCsr] at h
    split at h
    · exact .inl ⟨rfl, h⟩
    · exact .inr (.inl ⟨.inl rfl, (Host.Outcome.next.inj h).symm⟩)
    · exact .inr (.inr ⟨rfl, (Host.Outcome.next.inj h).symm⟩)
    · exact .inr (.inl ⟨.inr rfl, (Host.Outcome.next.inj h).symm⟩)
    · cases h
  | rdcsr n =>
    simp only at h
    split at h
    · exact ⟨_, ‹_›, (Host.Outcome.next.inj h).symm⟩
    · cases h
  | reset => exact (Host.Outcome.next.inj h).symm

/-- Everything a step can do when it ends in a next state: nothing, with nothing pending, or the effect of the
first pending transaction. -/
theorem step_cases {cfg : Config} {s t : State} (h : stepWith cfg s = .next t) :
    (s.pending = [] ∧ t = s) ∨
    ∃ x rest, s.pending = x :: rest ∧ TxnEffect cfg (s.setPending rest) t x := by
  unfold stepWith stepOnce at h
  split at h
  · exact .inl ⟨‹_›, (Host.Outcome.next.inj h).symm⟩
  · exact .inr ⟨_, _, ‹_›, txnEffect_of_transact h⟩

theorem stepWith_cons {cfg : Config} {s : State} {x : HostTxn} {rest : List HostTxn}
    (h : s.pending = x :: rest) : stepWith cfg s = transact cfg x (s.setPending rest) := by
  simp [stepWith, stepOnce, h]

/-- Performing a list of transactions is performing the first and then the others (R51). -/
theorem runTxns_cons_next {cfg : Config} {x : HostTxn} {xs : List HostTxn} {s s' s'' : State} {rs : List Reply}
    (h : transact cfg x s = .next s') (hr : runTxns cfg xs s' = .next (s'', rs)) :
    runTxns cfg (x :: xs) s = .next (s'', s'.reply :: rs) := by
  simp [runTxns, h, hr]

end Sys2Proof.Machine
end

