-- ==== Sys2Proof/Tests/Slice0.lean ====
section
/-! SUPPORT. Tests of the model, and for every statement with hypotheses a witness that meets them. Expected
results are the spec's: the vectors named EX1, TE4, M6 and so on stand in spec/95_test_vectors.md. -/

namespace Sys2Proof.Tests

open Sys2Proof.Machine

set_option Elab.async false

/-- The reset state with an operand string. -/
def ld (b : Bytes) : State :=
  { State.reset with inBuf := Memory.ofBytes b, inLen := BitVec.ofNat 32 b.length }

/-- The reset state with a type set. -/
def types (S : TypeSet) : State := State.reset.setTset S

/-- The result string and STATUS, for a next state. -/
def outcome : Host.Outcome State Fault Refusal → Option (Bytes × U32)
  | .next t => some (resultString t, t.status)
  | .fault _ => none
  | .refused _ => none

/-- The type set and STATUS, for a next state. -/
def typesAfter : Host.Outcome State Fault Refusal → Option (TypeSet × U32)
  | .next t => some (t.tset, t.status)
  | .fault _ => none
  | .refused _ => none

/-- The refusal, if there is one. -/
def refusalOf : Host.Outcome State Fault Refusal → Option Refusal
  | .next _ => none
  | .fault _ => none
  | .refused r => some r

/-! ## Ill-formed terms are refused -/

theorem test_wellFormed_ranges :
    (HostTxn.wrin 8703 0#8).inRange Config.default = true ∧ (HostTxn.wrin 8704 0#8).inRange Config.default = false ∧
    (HostTxn.rdin 8704).inRange Config.default = false ∧ (HostTxn.rdout 69648).inRange Config.default = true ∧
    (HostTxn.rdout 69649).inRange Config.default = false ∧ (HostTxn.wrout 0 0#8).inRange Config.default = false ∧
    (HostTxn.wrcsr 3 0#32).inRange Config.default = true ∧ (HostTxn.wrcsr 4 0#32).inRange Config.default = false ∧
    (HostTxn.rdcsr 4).inRange Config.default = false := by decide

theorem test_wellFormed_config :
    Config.default.legal ∧ ¬ (⟨0, 8704, none⟩ : Config).legal ∧ ¬ (⟨1, 8703, none⟩ : Config).legal ∧
    ¬ (⟨8704, 69648, none⟩ : Config).legal ∧ (⟨1, 8704, none⟩ : Config).legal ∧
    (⟨1, 2 ^ 32, none⟩ : Config).legal ∧ (⟨2 ^ 29, 2 ^ 32 + 17, none⟩ : Config).legal ∧
    Config.default.outLenFits ∧ ¬ (⟨1, 2 ^ 32, none⟩ : Config).outLenFits := by decide

theorem test_wellFormed_lists :
    Memory.wf [(0, 1#8), (3, 2#8)] ∧ ¬ Memory.wf [(3, 1#8), (0, 2#8)] ∧ ¬ Memory.wf [(0, 1#8), (0, 2#8)] ∧
    ¬ Memory.wf [(0, 0#8)] ∧ TypeSet.wf [1#16, 46#16] ∧ ¬ TypeSet.wf [46#16, 1#16] ∧
    ¬ TypeSet.wf [1#16, 1#16] := by decide

theorem test_refused_by_name :
    refusalOf (step { State.reset with pending := [.wrin 8704 0#8] }) = some (.inIndexOutOfRange 8704) ∧
    refusalOf (step { State.reset with pending := [.rdout 69649] }) = some (.outIndexOutOfRange 69649) ∧
    refusalOf (step { State.reset with pending := [.wrout 0 0#8] }) = some (.outWrite 0) ∧
    refusalOf (step { State.reset with pending := [.rdcsr 4] }) = some (.noSuchCsr 4) := by decide

/-! ## Decoding: words written bit by bit from R60 and R62 -/

theorem test_decode_expand : decodeWord 0b00000000000000000000000000000001#32 = .ok .expand := by decide
theorem test_decode_expandi : decodeWord 0b00000000000000000000000000000010#32 = .ok .expandi := by decide
theorem test_decode_contract : decodeWord 0b00000000000000000000000000000011#32 = .ok .contract := by decide
theorem test_decode_rev4 : decodeWord 0b00000000000000000000000000000100#32 = .ok .rev4 := by decide
theorem test_decode_rev6 : decodeWord 0b00000000000000000000000000000101#32 = .ok .rev6 := by decide
theorem test_decode_tbmenc : decodeWord 0b00000000000000000000000000001000#32 = .ok .tbmenc := by decide
theorem test_decode_tbmdec : decodeWord 0b00000000000000000000000000001001#32 = .ok .tbmdec := by decide
theorem test_decode_tsetclr : decodeWord 0b00000000000000000000000000001010#32 = .ok .tsetclr := by decide

theorem test_decode_illegal :
    decodeWord 0x00#32 = .error .unlistedOpcode ∧ decodeWord 0x06#32 = .error .unlistedOpcode ∧
    decodeWord 0x07#32 = .error .unlistedOpcode ∧ decodeWord 0x0B#32 = .error .unlistedOpcode ∧
    decodeWord 0xFF#32 = .error .unlistedOpcode ∧ decodeWord 0x101#32 = .error .nonZeroHighBits ∧
    decodeWord 0x80000001#32 = .error .nonZeroHighBits := by decide

theorem test_decode_table :
    decodeTableWord 32 1 = some .expand ∧ decodeTableWord 32 10 = some .tsetclr ∧ decodeTableWord 32 257 = none ∧
    decodeTableWord 8 3 = some .contract := by decide

/-- M11 and M12, through the host's way of placing a word. -/
theorem test_step_fetch :
    outcome (step (State.reset.withFetchWord 32 1)) = some ([], 0x00000101#32) ∧
    outcome (step (State.reset.withFetchWord 32 5)) = some (ascii "0.0.0.0.ip6.arpa.", 0x00000510#32) := by
  decide +kernel

/-- M2, M4: an illegal word. -/
theorem test_step_illegal :
    outcome (step (State.reset.withFetchWord 32 0)) = some ([], 0x00000003#32) ∧
    outcome (step (State.reset.withFetchWord 32 0x101)) = some ([], 0x00000103#32) := by decide

/-! ## The commands on the spec's vectors -/

/-- EX10. -/
theorem test_expand_quad : outcome (exec .expand (ld (ascii "::ffff:192.168.1.213"))) =
    some (ascii "0000:0000:0000:0000:0000:ffff:c0a8:01d5", 0x00000100#32) := by decide +kernel
/-- EX22. -/
theorem test_expand_invalid : outcome (exec .expand (ld (ascii "1:2:3:4:5:6:7:8::"))) = some ([], 0x00000101#32) := by
  decide +kernel
/-- EI7. -/
theorem test_expandi_raw : outcome (exec .expandi (ld (ascii "AbC:g:."))) =
    some (ascii "0AbC:000g:000.", 0x00000200#32) := by decide +kernel
/-- CT2: of two longest runs the later one. -/
theorem test_contract_tie : outcome (exec .contract (ld (ascii "2001:db8:0:0:1:0:0:1"))) =
    some (ascii "2001:db8:0:0:1::1", 0x00000300#32) := by decide +kernel
/-- CT20: a longer earlier run against a shorter later one. -/
theorem test_contract_longer : outcome (exec .contract (ld (ascii "1:0:0:0:2:0:0:3"))) =
    some (ascii "1::2:0:0:3", 0x00000300#32) := by decide +kernel
/-- R4-1. -/
theorem test_rev4 : outcome (exec .rev4 (ld (ascii "192.168.1.213"))) =
    some (ascii "213.1.168.192.in-addr.arpa.", 0x00000400#32) := by decide +kernel
/-- R4-8. -/
theorem test_rev4_invalid : outcome (exec .rev4 (ld (ascii "1.2.3.4 "))) = some ([], 0x00000401#32) := by
  decide +kernel
/-- R6-2. -/
theorem test_rev6 : outcome (exec .rev6 (ld (ascii "::1"))) =
    some (ascii "1.0.0.0.0.0.0.0.0.0.0.0.0.0.0.0.0.0.0.0.0.0.0.0.0.0.0.0.0.0.0.0.ip6.arpa.", 0x00000500#32) := by
  decide +kernel
/-- R6-5. -/
theorem test_rev6_fallback : outcome (exec .rev6 (ld (ascii "2001:db8::/32"))) =
    some (ascii "2.3./.0.0.0.0.0.8.b.d.0.1.0.0.2.ip6.arpa.", 0x00000510#32) := by decide +kernel
/-- TE4. -/
theorem test_tbmenc : outcome (exec .tbmenc (types [1#16, 46#16])) =
    some ([0x00#8, 0x06#8, 0x40#8, 0x00#8, 0x00#8, 0x00#8, 0x00#8, 0x02#8], 0x00000800#32) := by decide +kernel
/-- TE8: the highest code. -/
theorem test_tbmenc_last : outcome (exec .tbmenc (types [65535#16])) =
    some ([0xFF#8, 0x20#8] ++ List.replicate 31 0x00#8 ++ [0x01#8], 0x00000800#32) := by decide +kernel
/-- TD16. -/
theorem test_tbmdec : typesAfter (exec .tbmdec (ld [0x05#8, 0x01#8, 0x01#8])) = some ([1287#16], 0x00000900#32) := by
  decide
/-- TD7: the set is as it was. -/
theorem test_tbmdec_malformed :
    typesAfter (exec .tbmdec ((ld [0x01#8, 0x01#8, 0x80#8, 0x00#8, 0x01#8, 0x40#8]).setTset [2#16])) =
      some ([2#16], 0x00000902#32) := by decide
/-- M1. -/
theorem test_tsetclr : typesAfter (exec .tsetclr (types [1#16, 46#16])) = some ([], 0x00000A00#32) := by decide

/-- A line of script P4, and one the syntax has no meaning for (R65, R66). -/
theorem test_script :
    parseScript (ascii "wrcsr CMD, 0x00000107 # illegal") = some [.txn (.wrcsr 0 0x107#32)] ∧
    parseScript (ascii "expect tset") = none := by decide

/-! ## Witnesses: states and operands that meet the hypotheses of the statements -/

/-- ResetValuesOfTheTable. -/
theorem witness_reset : ∃ t, ((ld (ascii "::")).setPending [.reset]).pending = HostTxn.reset :: [] ∧
    stepWith Config.default ((ld (ascii "::")).setPending [.reset]) = .next t := ⟨_, rfl, rfl⟩

/-- CommandsRightAfterReset, ErrorCodesByCommand, TextCommandsFrame, TypeSetCommandsFrame: the commands named,
each with a next state. -/
theorem witness_commands :
    (∀ i ∈ [Instr.expand, .expandi, .contract, .rev4, .rev6, .tbmenc], ∃ t, exec i (ld (ascii "::1")) = .next t) ∧
    (∀ i ∈ [Instr.tbmdec, .tsetclr], ∃ t, exec i (types [1#16, 65535#16]) = .next t) := by
  refine ⟨fun i _ => ?_, fun i _ => ?_⟩ <;> cases i <;> exact ⟨_, rfl⟩

/-- CmdWriteRunsDecodedCommand, one clause after the other. -/
theorem witness_cmd_write :
    (State.reset.setPending [.wrcsr 0 0x0A#32]).pending = HostTxn.wrcsr 0 0x0A#32 :: [] ∧
    decodeWord 0x0A#32 = .ok .tsetclr ∧
    (State.reset.setPending [.wrcsr 0 0x0B#32]).pending = HostTxn.wrcsr 0 0x0B#32 :: [] ∧
    decodeWord 0x0B#32 = .error .unlistedOpcode ∧
    (State.reset.setPending [.rdcsr 0]).pending = HostTxn.rdcsr 0 :: [] := by decide

/-- IllegalWordsCompleteWithCode3: 0, the words beside the listed ones, and the last word. -/
theorem witness_illegal :
    (∀ v, (State.reset.setPending [.wrcsr 0 v]).pending = HostTxn.wrcsr 0 v :: []) ∧
    (0x00#32).toNat ∉ [1, 2, 3, 4, 5, 8, 9, 10] ∧ (0x06#32).toNat ∉ [1, 2, 3, 4, 5, 8, 9, 10] ∧
    (0x07#32).toNat ∉ [1, 2, 3, 4, 5, 8, 9, 10] ∧ (0x0B#32).toNat ∉ [1, 2, 3, 4, 5, 8, 9, 10] ∧
    (0x101#32).toNat ∉ [1, 2, 3, 4, 5, 8, 9, 10] ∧ (0xFFFFFFFF#32).toNat ∉ [1, 2, 3, 4, 5, 8, 9, 10] :=
  ⟨fun _ => rfl, by decide, by decide, by decide, by decide, by decide, by decide⟩

/-- WrinStoresOneByte, WrtsetStoresOneCell: the last cells. -/
theorem witness_stores :
    (State.reset.setPending [.wrin 8703 0xFF#8]).pending = HostTxn.wrin 8703 0xFF#8 :: [] ∧
    8703 < Config.default.inMax ∧
    (State.reset.setPending [.wrtset 65535#16 true]).pending = HostTxn.wrtset 65535#16 true :: [] := by decide

/-- ReadsAndIgnoredWritesChangeNothing, one clause after the other, at the last index of each space. -/
theorem witness_reads :
    (State.reset.setPending [.rdin 8703]).pending = HostTxn.rdin 8703 :: [] ∧ 8703 < Config.default.inMax ∧
    (State.reset.setPending [.rdout 69648]).pending = HostTxn.rdout 69648 :: [] ∧
    69648 < Config.default.outMax ∧
    (State.reset.setPending [.rdtset 65535#16]).pending = HostTxn.rdtset 65535#16 :: [] ∧
    (∀ n ∈ [0, 1, 2, 3], (State.reset.setPending [.rdcsr n]).pending = HostTxn.rdcsr n :: []) ∧
    (∀ n ∈ [1, 3], (State.reset.setPending [.wrcsr n 7#32]).pending = HostTxn.wrcsr n 7#32 :: []) := by decide

/-- InLenTakesOnlyLegalValues, with M6 and M7: the values on both sides of `IN_MAX`, a reachable state, and a
command. -/
theorem witness_in_len :
    (State.reset.setPending [.wrcsr 2 8704#32]).pending = HostTxn.wrcsr 2 8704#32 :: [] ∧
    (State.reset.setPending [.wrcsr 2 8705#32]).pending = HostTxn.wrcsr 2 8705#32 :: [] ∧
    (8704#32).toNat ≤ Config.default.inMax ∧ ¬ (8705#32).toNat ≤ Config.default.inMax ∧
    Reachable Config.default State.reset ∧ ∃ t, exec .tsetclr State.reset = .next t :=
  ⟨rfl, rfl, by decide, by decide, .reset, _, rfl⟩

/-- OutOfRangeTransactionsRefused: the first index past each range. -/
theorem witness_out_of_range :
    Config.default.inMax ≤ 8704 ∧ Config.default.outMax ≤ 69649 ∧
    (∀ t ∈ [HostTxn.wrin 8704 0#8, .rdin 8704, .rdout 69649, .wrcsr 4 0#32, .rdcsr 4, .wrout 0 0#8],
      (State.reset.setPending [t]).pending = t :: []) := by decide

/-- InRangeTransactionsAlwaysComplete: a transaction of each kind, at the end of its range, and none. -/
theorem witness_in_range :
    (∀ t ∈ [HostTxn.wrin 8703 1#8, .rdin 0, .rdout 69648, .wrtset 0#16 true, .rdtset 65535#16, .wrcsr 3 1#32,
        .wrcsr 0 0xFF#32, .rdcsr 3, .reset],
      (State.reset.setPending [t]).pending = t :: [] ∧ t.inRange Config.default = true) ∧
    State.reset.pending = [] := by decide

/-- OnlyTheseTransactionsWriteEachSpace: a step that changes each space. -/
theorem witness_writers :
    (∃ t, stepWith Config.default (State.reset.setPending [.wrin 5 1#8]) = .next t ∧
      t.inBuf.read 5 ≠ State.reset.inBuf.read 5) ∧
    (∃ t, stepWith Config.default (State.reset.setPending [.wrcsr 0 2#32]) = .next t ∧
      t.outBuf.read 3 ≠ State.reset.outBuf.read 3 ∧ t.status ≠ State.reset.status) ∧
    (∃ t, stepWith Config.default (State.reset.setPending [.wrtset 9#16 true]) = .next t ∧
      t.tset.test 9#16 ≠ State.reset.tset.test 9#16) :=
  ⟨⟨_, rfl, by decide⟩, ⟨_, rfl, by decide, by decide⟩, ⟨_, rfl, by decide⟩⟩

/-- RangeWriteThenRangeRead: a canonical buffer, and bytes on both sides of the range. -/
theorem witness_range : Memory.wf [(0, 1#8), (5, 2#8)] ∧ (0 < 1 ∨ 1 + [7#8, 0#8].length ≤ 0) ∧
    (3 < 1 ∨ 1 + [7#8, 0#8].length ≤ 3) := by decide

/-- SuccessfulCompletionWrites, FailedCompletionWrites, FlagsWrittenByEveryCompletion: one outcome of each
kind, and an illegal word. -/
theorem witness_completion :
    commandOutcome .tbmenc State.reset = .ok (.bytes []) ∧
    commandOutcome .rev6 State.reset = .ok (.bytes (ascii "0.0.0.0.ip6.arpa.")) ∧
    commandOutcome .tbmdec (ld [0xFF#8, 0x01#8, 0x80#8]) = .ok (.typeSet [65280#16]) ∧
    commandOutcome .expand State.reset = .error .invalidAddress ∧
    commandOutcome .tbmdec (ld [0x00#8]) = .error .malformedWireData ∧
    decodeWord 0x101#32 = .error .nonZeroHighBits := by decide +kernel

/-- FlagsWrittenByEveryCompletion: next states of a command and of an illegal word. -/
theorem witness_flags : (∃ t, exec .rev6 State.reset = .next t ∧ statusFb t.status = true) ∧
    (∃ t, runCommand 0x101#32 State.reset = .next t) ∧ ∃ t, runCommand 5#32 State.reset = .next t :=
  ⟨⟨_, rfl, by decide +kernel⟩, ⟨_, rfl⟩, ⟨_, rfl⟩⟩

/-- OutcomeDependsOnOperandsOnly: states that differ in STATUS and in a byte of IN past the operand. -/
theorem witness_operands_only :
    operandString (ld [0x31#8]) = operandString
      { ld [0x31#8] with inBuf := [(0, 0x31#8), (7, 5#8)], status := 0x0510#32 } ∧
    SameTset (ld [0x31#8]) { ld [0x31#8] with inBuf := [(0, 0x31#8), (7, 5#8)], status := 0x0510#32 } ∧
    (∃ t, exec .expandi (ld [0x31#8]) = .next t) ∧
    ∃ t, exec .expandi { ld [0x31#8] with inBuf := [(0, 0x31#8), (7, 5#8)], status := 0x0510#32 } = .next t :=
  ⟨by decide, fun _ => rfl, ⟨_, rfl⟩, ⟨_, rfl⟩⟩

/-- FailedCommandRepeatsItself: one failure of each kind. -/
theorem witness_failed :
    (∃ t, exec .contract State.reset = .next t ∧ statusErr t.status ≠ 0#4) ∧
    ∃ t, exec .tbmdec (ld [0x00#8, 0x21#8]) = .next t ∧ statusErr t.status ≠ 0#4 :=
  ⟨⟨_, rfl, by decide⟩, ⟨_, rfl, by decide⟩⟩

/-- StepKeepsInvariants: a legal configuration, a state with every field in use that meets the invariants,
and its step. -/
theorem witness_invariants :
    Config.default.legal ∧
    Inv Config.default
      { inBuf := [(8703, 1#8)], inLen := 8704#32, outBuf := [(0, 0x41#8)], outLen := 1#32, tset := [0#16, 65535#16],
        status := 0x0510#32, pending := [.wrcsr 0 1#32], reply := .nothing } ∧
    ∃ t, stepWith Config.default
      { inBuf := [(8703, 1#8)], inLen := 8704#32, outBuf := [(0, 0x41#8)], outLen := 1#32, tset := [0#16, 65535#16],
        status := 0x0510#32, pending := [.wrcsr 0 1#32], reply := .nothing } = .next t := by
  refine ⟨by decide, ⟨by decide, by decide, fun _ i hi => ?_, by decide, by decide, by decide, by decide, by decide,
    by decide, by decide, by decide, by decide⟩, ⟨_, rfl⟩⟩
  have h1 : 1 ≤ i := hi
  have : (0 : Nat) ≠ i := by omega
  simp [Memory.read, this, unlistedByte]

/-- ReachableStatesMeetInvariants: a reachable state with STATUS written. -/
theorem witness_reachable : Config.default.legal ∧ Config.default.outLenFits ∧
    ∃ t, Reachable Config.default t ∧ statusErr t.status = 1#4 :=
  ⟨by decide, by decide, _, .step _ _ (.input _ [.wrcsr 0 1#32] .reset) rfl, by decide⟩

/-- FullFormIsEightGroupsOfFour, FullFormParsesBack, HextetsAreBigEndianBytes, LongestZeroRunIsTheLastLongest:
lists of eight hextets with no zero, one zero at the end, and all zero. -/
theorem witness_hextets :
    ([1#16, 2#16, 3#16, 4#16, 5#16, 6#16, 7#16, 8#16] : List U16).length = 8 ∧
    longestZeroRun [1#16, 2#16, 3#16, 4#16, 5#16, 6#16, 7#16, 8#16] = (none, 0) ∧
    longestZeroRun [0#16, 2#16, 3#16, 4#16, 5#16, 6#16, 7#16, 0#16] = (some 7, 1) ∧
    longestZeroRun (List.replicate 8 0#16) = (some 0, 8) ∧ (List.replicate 8 0#16).length = 8 ∧
    ZeroRange (List.replicate 8 0#16) 7 1 ∧ ([0#16, 0xFFFF#16] : List U16)[1]? = some 0xFFFF#16 := by
  refine ⟨rfl, by decide, by decide, by decide, rfl, ⟨by decide, fun k h1 h2 => ?_⟩, rfl⟩
  obtain rfl : k = 7 := by omega
  rfl

/-- ExpandGivesTheFullForm: a valid operand, an invalid one, a result fed back, and a full form in mixed case. -/
theorem witness_expand :
    parseIPv6 (operandString (ld (ascii "::1"))) = some [0#16, 0#16, 0#16, 0#16, 0#16, 0#16, 0#16, 1#16] ∧
    parseIPv6 (operandString (ld (ascii "1:2:3:4:5:6:7"))) = none ∧
    (∃ t, exec .expand (ld (ascii "::1")) = .next t ∧ statusErr t.status = 0#4 ∧
      operandString (ld (ascii "0000:0000:0000:0000:0000:0000:0000:0001")) = resultString t) ∧
    (∀ u ∈ List.replicate 8 (ascii "00aF"), u.length = 4 ∧ u.all isHexDigit = true) ∧
    operandString (ld (join [colon] (List.replicate 8 (ascii "00aF")))) =
      join [colon] (List.replicate 8 (ascii "00aF")) :=
  ⟨by decide +kernel, by decide +kernel, ⟨_, rfl, by decide +kernel, by decide +kernel⟩, by decide +kernel,
    by decide +kernel⟩

/-- ExpandiPadsEachToken: two empty tokens, and a token of more than four bytes. -/
theorem witness_expandi :
    operandString (ld (ascii ":")) = join [colon] [[], []] ∧
    operandString (ld (ascii "12345:1")) = join [colon] [ascii "12345", ascii "1"] ∧
    (∀ u ∈ [ascii "12345", ascii "1"], colon ∉ u) := by decide +kernel

/-- ContractGivesTheShorthand, ContractHasOneDoubleColonIffSomeZero, ContractAndExpandKeepTheAddress: operands
without a zero hextet and with one, an invalid one, and the full form fed back. -/
theorem witness_contract :
    parseIPv6 (operandString (ld (ascii "1:2:3:4:5:6:7:8"))) =
      some [1#16, 2#16, 3#16, 4#16, 5#16, 6#16, 7#16, 8#16] ∧
    parseIPv6 (operandString (ld (ascii "1::8"))) = some [1#16, 0#16, 0#16, 0#16, 0#16, 0#16, 0#16, 8#16] ∧
    parseIPv6 (operandString (ld (ascii "::/0"))) = none ∧
    (∃ t u w, exec .contract (ld (ascii "1::8")) = .next t ∧ statusErr t.status = 0#4 ∧
      exec .expand (ld (ascii "1::8")) = .next u ∧
      operandString (ld (ascii "0001:0000:0000:0000:0000:0000:0000:0008")) = resultString u ∧
      exec .contract (ld (ascii "0001:0000:0000:0000:0000:0000:0000:0008")) = .next w) :=
  ⟨by decide +kernel, by decide +kernel, by decide +kernel, _, _, _, rfl, by decide +kernel, rfl, by decide +kernel,
    rfl⟩

/-- Rev4ReversesTheOctets: the least and the greatest octets, and an operand that is no dotted quad. -/
theorem witness_rev4 :
    (∀ u ∈ [ascii "0", ascii "9", ascii "10", ascii "255"], isDecOctet u = true) ∧
    operandString (ld (ascii "0.9.10.255")) = join [dot] [ascii "0", ascii "9", ascii "10", ascii "255"] ∧
    ¬ ∃ a b c d, isDecOctet a = true ∧ isDecOctet b = true ∧ isDecOctet c = true ∧ isDecOctet d = true ∧
      operandString (ld (ascii "256.1.1.1")) = join [dot] [a, b, c, d] := by
  refine ⟨by decide +kernel, by decide +kernel, ?_⟩
  rintro ⟨a, b, c, d, ha, hb, hc, hd, h⟩
  have := parseIPv4_eq_some.2 ⟨a, b, c, d, ha, hb, hc, hd, h, rfl⟩
  exact absurd this (by rw [show parseIPv4 (operandString (ld (ascii "256.1.1.1"))) = none by decide +kernel]; simp)

/-- Rev6ReversesTheNibbles, Rev6FallsBackInsteadOfFailing, AddressResultLengths: both paths. -/
theorem witness_rev6 :
    parseIPv6 (operandString (ld (ascii "::1.2.3.4"))) =
      some [0#16, 0#16, 0#16, 0#16, 0#16, 0#16, 0x0102#16, 0x0304#16] ∧
    parseIPv6 (operandString (ld (ascii "1.2.3.4"))) = none ∧ parseIPv6 [] = none ∧
    (∃ t, exec .rev6 (ld (ascii "1.2.3.4")) = .next t) ∧
    expandFn (ascii "::") = .ok (.bytes (ascii "0000:0000:0000:0000:0000:0000:0000:0000")) ∧
    expandiFn [] = .ok (.bytes (ascii "0000")) ∧ contractFn (ascii "::") = .ok (.bytes (ascii "::")) ∧
    rev4Fn (ascii "0.0.0.0") = .ok (.bytes (ascii "0.0.0.0.in-addr.arpa.")) :=
  ⟨by decide +kernel, by decide +kernel, by decide, ⟨_, rfl⟩, by decide +kernel, by decide +kernel, by decide +kernel,
    by decide +kernel⟩

/-- Rev6OfAPrefixOfHextets: one hextet, and seven. -/
theorem witness_fragment :
    (∀ u ∈ [ascii "a"], isH16 u = true) ∧ operandString (ld (ascii "a")) = join [colon] [ascii "a"] ∧
    (∀ u ∈ [ascii "1", ascii "2", ascii "3", ascii "4", ascii "5", ascii "6", ascii "FFFF"], isH16 u = true) ∧
    operandString (ld (ascii "1:2:3:4:5:6:FFFF")) =
      join [colon] [ascii "1", ascii "2", ascii "3", ascii "4", ascii "5", ascii "6", ascii "FFFF"] := by
  decide +kernel

/-- WireFormOfOneCode: the first and the last code. -/
theorem witness_one_code : (∀ d, (types [0#16]).tset.test d = decide (d = 0#16)) ∧
    ∀ d, (types [65535#16]).tset.test d = decide (d = 65535#16) :=
  ⟨fun d => by simp [types, TypeSet.test, State.setTset], fun d => by simp [types, TypeSet.test, State.setTset]⟩

/-- TbmencResultLength: a set with local bit 255 in every window. TbmencGivesMinimalWindows: two lists of one
set. -/
theorem witness_full_windows :
    (∀ w, w < 256 → BitVec.ofNat 16 (256 * w + 255) ∈ (List.range 256).map (fun w => BitVec.ofNat 16 (256 * w + 255))) ∧
    ∀ c : U16, TypeSet.test [1#16, 2#16] c = TypeSet.test [2#16, 1#16] c :=
  ⟨fun w hw => List.mem_map.2 ⟨w, List.mem_range.2 hw, rfl⟩, fun c => by simp [TypeSet.test, or_comm]⟩

/-- TbmdecReplacesTheSet: accepted windows of 1 and of 32 bytes, and an operand that is none. -/
theorem witness_tbmdec :
    WindowsOk [(0x00#8, [0x40#8]), (0xFF#8, List.replicate 32 0x01#8)] ∧
    operandString (ld (wireBytes [(0x00#8, [0x40#8]), (0xFF#8, List.replicate 32 0x01#8)])) =
      wireBytes [(0x00#8, [0x40#8]), (0xFF#8, List.replicate 32 0x01#8)] ∧
    ¬ ∃ W, WindowsOk W ∧ operandString (ld [0x00#8]) = wireBytes W := by
  refine ⟨by unfold WindowsOk; decide +kernel, by decide +kernel, ?_⟩
  rintro ⟨W, -, h⟩
  have hl : (operandString (ld [0x00#8])).length = 1 := by decide
  rw [h] at hl
  cases W with
  | nil => cases hl
  | cons w W => simp [wireBytes] at hl

/-- TypeSetRoundTrips: an encoded set read back, and a decoded string with a window that ends in a zero byte. -/
theorem witness_round_trips :
    (∃ t, exec .tbmenc (types [1#16]) = .next t ∧ operandString (ld [0x00#8, 0x01#8, 0x40#8]) = resultString t) ∧
    tbmdecFn [0x00#8, 0x01#8, 0x40#8] = .ok (.typeSet [1#16]) ∧
    tbmdecFn [0x00#8, 0x02#8, 0x40#8, 0x00#8] = .ok (.typeSet [1#16]) ∧
    ¬ WindowsMinimal [(0x00#8, [0x40#8, 0x00#8])] := by
  refine ⟨⟨_, rfl, by decide +kernel⟩, by decide, by decide, fun h => ?_⟩
  obtain ⟨b, h1, h2⟩ := h _ (List.mem_singleton.2 rfl)
  exact h2 (Option.some.inj h1).symm

/-- LoadPlacesTheOperand, CopyoutMovesTheResult: operands that fit, the result of a command among them. -/
theorem witness_script :
    (List.replicate 8704 0x00#8).length ≤ Config.default.inMax ∧ (List.replicate 8704 0x00#8).length < 2 ^ 32 ∧
    (State.reset.setResult (ascii "::")).outLen.toNat ≤ Config.default.inMax ∧
    (State.reset.setResult (ascii "::")).outLen.toNat ≤ Config.default.outMax := by
  simp only [List.length_replicate]; decide

/-- InstancesAreIndependent: the second of two instances, of different capacities, steps. -/
theorem witness_instances :
    ∃ l, stepInstance (fun j => if j = 0 then Config.default else ⟨1, 8704, none⟩) 1 [State.reset, State.reset.setPending [.wrtset 3#16 true]] = some l :=
  ⟨_, rfl⟩

end Sys2Proof.Tests
end

/-! The architectural state (spec/10_state.md): the reset values, `IN_LEN`, the flags, and what the outcome of a
command depends on. -/

namespace Sys2Proof.Machine

/-! ## Reset -/

/-- A RESET transaction leaves the reset state, with the host's further transactions in line (R160). -/
theorem stepWith_reset {cfg : Config} {s : State} {rest : List HostTxn} (h : s.pending = .reset :: rest) :
    stepWith cfg s = .next (State.reset.setPending rest) := by
  rw [stepWith_cons h]
  rfl

/-- Settles O2: both ways to a state after reset leave `State.reset` up to what is pending. -/
theorem resetValuesOfTheTable : Obligations.ResetValuesOfTheTable := by
  refine ⟨fun t ht => ?_, fun cfg s rest h => ⟨_, stepWith_reset h⟩⟩
  obtain ⟨l, rfl⟩ : ∃ l, t = State.reset.setPending l := by
    rcases ht with rfl | ⟨cfg, s, rest, hp, hstep⟩
    · exact ⟨[], rfl⟩
    · rw [stepWith_reset hp] at hstep
      exact ⟨rest, (Host.Outcome.next.inj hstep).symm⟩
  obtain ⟨herr, hfb, hop⟩ : statusErr 0#32 = 0#4 ∧ statusFb 0#32 = false ∧ statusOp 0#32 = 0x00#8 := by decide
  exact ⟨fun _ => rfl, rfl, fun _ => rfl, rfl, fun _ => rfl, herr, hfb, hop, rfl, rfl⟩

/-! ## IN_LEN -/

/-- A write of a command word, legal or not, is one completion (R67). -/
theorem exists_complete_of_runCommand {v : U32} {s t : State} (h : runCommand v s = .next t) :
    ∃ op fb o, t = complete op fb o s := by
  rcases runCommand_eq v s with ⟨i, -, -, hrun⟩ | ⟨e, -, hrun⟩
  · exact ⟨_, _, _, (Host.Outcome.next.inj (hrun.symm.trans h)).symm⟩
  · exact ⟨_, _, _, (Host.Outcome.next.inj (hrun.symm.trans h)).symm⟩

theorem writeInLen_inLen (n : Nat) (v : U32) (s : State) :
    (writeInLen n v s).inLen = if v.toNat ≤ n then v else s.inLen := by
  unfold writeInLen
  split <;> rfl

/-- A write of `IN_LEN` changes no other field. -/
theorem writeInLen_eq_setInLen (n : Nat) (v : U32) (s : State) : ∃ w, writeInLen n v s = s.setInLen w := by
  unfold writeInLen
  split
  · exact ⟨v, rfl⟩
  · exact ⟨s.inLen, rfl⟩

/-- The only transactions that change `IN_LEN` are its write and RESET, and both keep it within `IN_MAX`. -/
theorem TxnEffect.inLen_eq_or_le {cfg : Config} {s t : State} {x : HostTxn} (h : TxnEffect cfg s t x) :
    t.inLen = s.inLen ∨ t.inLen.toNat ≤ cfg.inMax := by
  cases x with
  | wrin i b => obtain ⟨-, rfl⟩ := h; exact .inl rfl
  | rdin i => obtain ⟨-, rfl⟩ := h; exact .inl rfl
  | rdout i => obtain ⟨-, rfl⟩ := h; exact .inl rfl
  | wrout i b => exact h.elim
  | wrtset c v => obtain rfl := h; exact .inl rfl
  | rdtset c => obtain rfl := h; exact .inl rfl
  | wrcsr n v =>
    rcases h with ⟨-, hrun⟩ | ⟨-, rfl⟩ | ⟨-, rfl⟩
    · obtain ⟨op, fb, o, rfl⟩ := exists_complete_of_runCommand hrun
      exact .inl (complete_inLen ..)
    · exact .inl rfl
    · rw [writeInLen_inLen]
      split
      · exact .inr ‹_›
      · exact .inl rfl
  | rdcsr n => obtain ⟨v, -, rfl⟩ := h; exact .inl rfl
  | reset => obtain rfl := h; exact .inr (Nat.zero_le _)

/-- Every step keeps `IN_LEN` within `IN_MAX` (R28, R35). -/
theorem stepWith_inLen_le {cfg : Config} {s t : State} (hs : s.inLen.toNat ≤ cfg.inMax)
    (h : stepWith cfg s = .next t) : t.inLen.toNat ≤ cfg.inMax := by
  rcases step_cases h with ⟨-, rfl⟩ | ⟨x, rest, -, heff⟩
  · exact hs
  · rcases heff.inLen_eq_or_le with heq | hle
    · rwa [heq]
    · exact hle

theorem Reachable.inLen_le {cfg : Config} {s : State} (h : Reachable cfg s) : s.inLen.toNat ≤ cfg.inMax := by
  induction h with
  | reset => exact Nat.zero_le _
  | input s l _ ih => exact ih
  | step s t _ hstep ih => exact stepWith_inLen_le ih hstep

/-- Settles O11: the register's write by its two branches, the bound by induction over the run, and that every
command is one completion, which leaves `IN_LEN` alone. -/
theorem inLenTakesOnlyLegalValues : Obligations.InLenTakesOnlyLegalValues := by
  refine ⟨fun cfg s v rest h => ?_, fun cfg s => Reachable.inLen_le, fun i s t h => ?_⟩
  · refine ⟨_, stepWith_cons h, writeInLen_inLen .., ?_⟩
    obtain ⟨w, hw⟩ := writeInLen_eq_setInLen cfg.inMax v ((s.setPending rest).setReply .nothing)
    rw [hw]
    exact ⟨fun _ => rfl, ⟨fun _ => rfl, rfl⟩, fun _ => rfl, rfl⟩
  · rw [(exec_next_iff i s t).mp h, complete_inLen]

/-! ## The encoder reads a type set by its members

`SameTset` speaks of the cells, so two states that agree by it may hold different lists. -/

theorem highestBit_congr {L L' : List Nat} (h : ∀ i, i ∈ L ↔ i ∈ L') : highestBit L = highestBit L' := by
  have le_of_subset : ∀ {M N : List Nat}, (∀ i, i ∈ M → i ∈ N) → highestBit M ≤ highestBit N := by
    intro M N hsub
    by_cases hM : M = []
    · subst hM; exact Nat.zero_le _
    · exact le_highestBit (hsub _ (highestBit_mem hM))
  exact le_antisymm (le_of_subset fun i => (h i).mp) (le_of_subset fun i => (h i).mpr)

theorem bitmapBytes_congr (n : Nat) {L L' : List Nat} (h : ∀ i, i ∈ L ↔ i ∈ L') :
    bitmapBytes n L = bitmapBytes n L' := by
  refine bitmap_ext (by simp) fun k q hk hq => ?_
  rw [length_bitmapBytes] at hk
  have bit : ∀ M, (∃ b, (bitmapBytes n M)[k]? = some b ∧ b &&& bitMask q ≠ 0x00#8) ↔ 8 * k + q ∈ M := by
    intro M
    rw [← bitmapBytes_bit (n := n) (by omega), ← bitMask_mod (8 * k + q),
      show (8 * k + q) / 8 = k by omega, show (8 * k + q) % 8 = q by omega]
  rw [bit, bit, h]

theorem windowFor_congr {S S' : TypeSet} (h : ∀ c, c ∈ S ↔ c ∈ S') (w : Byte) :
    windowFor S w = windowFor S' w := by
  have hmem : ∀ i, i ∈ localBits S w ↔ i ∈ localBits S' w := by simp [mem_localBits, h]
  have hnil : localBits S w = [] ↔ localBits S' w = [] := by
    simp only [List.eq_nil_iff_forall_not_mem, hmem]
  simp only [windowFor, hnil, highestBit_congr hmem, bitmapBytes_congr _ hmem]

/-- TBMENC's result depends on the codes of the set alone, not on the list that holds it (R125). -/
theorem encodeSet_congr {S S' : TypeSet} (h : ∀ c, c ∈ S ↔ c ∈ S') : encodeSet S = encodeSet S' := by
  simp only [encodeSet_eq_wireBytes, windowsOf, windowFor_congr h]

/-! ## What the outcome of a command depends on -/

theorem SameTset.mem_iff {s s' : State} (h : SameTset s s') (c : U16) : c ∈ s.tset ↔ c ∈ s'.tset := by
  rw [← TypeSet.test_iff, ← TypeSet.test_iff, h c]

section
variable {s s' : State} (hop : operandString s = operandString s')
include hop

/-- A command's outcome depends on its operand string and the codes in TSET (R31). -/
theorem commandOutcome_congr (hset : SameTset s s') (i : Instr) : commandOutcome i s = commandOutcome i s' := by
  cases i with
  | tbmenc =>
    have henc : encodeSet s.tset = encodeSet s'.tset := encodeSet_congr hset.mem_iff
    simp only [commandOutcome, tbmencFn, operandSet, henc]
  | tsetclr => rfl
  | expand | expandi | contract | rev4 | rev6 | tbmdec => simp only [commandOutcome, hop]

theorem commandFallback_congr (i : Instr) : commandFallback i s = commandFallback i s' := by
  cases i with
  | rev6 => simp only [commandFallback, hop]
  | expand | expandi | contract | rev4 | tbmenc | tbmdec | tsetclr => rfl

end

theorem test_outcomeSet_congr {S S' : TypeSet} {c : U16} (h : S.test c = S'.test c) (o : CommandOutcome) :
    (outcomeSet S o).test c = (outcomeSet S' o).test c := by
  rcases o with e | r | T
  · exact h
  · exact h
  · rfl

/-- Settles O20: both completions have the same outcome and the same fallback bit, and a completion writes
nothing else but what the outcome leaves of TSET. -/
theorem outcomeDependsOnOperandsOnly : Obligations.OutcomeDependsOnOperandsOnly := by
  intro i s s' t t' hop hset ht ht'
  rw [exec_next_iff] at ht ht'
  subst ht ht'
  rw [commandOutcome_congr hop hset, commandFallback_congr hop]
  refine ⟨by simp, by simp, by simp, fun c => ?_⟩
  rw [complete_tset, complete_tset]
  exact test_outcomeSet_congr (hset c).symm _

/-! ## The flags -/

theorem commandFallback_iff (i : Instr) (s : State) :
    commandFallback i s = true ↔ i = .rev6 ∧ parseIPv6 (operandString s) = none := by
  cases i <;> simp [commandFallback, rev6Fallback]

/-- A command with a fallback bit raises no error (R108), so its completion writes the bit as it is. -/
theorem outcomeFb_commandFallback (i : Instr) (s : State) :
    outcomeFb (commandFallback i s) (commandOutcome i s) = commandFallback i s := by
  cases i with
  | rev6 => rfl
  | expand | expandi | contract | rev4 | tbmenc | tbmdec | tsetclr =>
    simp only [commandFallback, outcomeFb]
    split <;> rfl

/-- A completion overwrites STATUS and reads nothing of it. -/
theorem complete_setStatus (op : Byte) (fb : Bool) (o : CommandOutcome) (s : State) (w : U32) :
    complete op fb o (s.setStatus w) = complete op fb o s := by
  rcases o with e | r | S <;> rfl

theorem operandString_setStatus (s : State) (w : U32) : operandString (s.setStatus w) = operandString s := rfl

/-- No command reads STATUS (R30). -/
theorem runCommand_setStatus (v : U32) (s : State) (w : U32) : runCommand v (s.setStatus w) = runCommand v s := by
  unfold runCommand
  cases decodeWord v with
  | ok i =>
    simp only [exec_eq_complete, complete_setStatus]
    rw [commandOutcome_congr (operandString_setStatus s w) (fun _ => rfl),
      commandFallback_congr (operandString_setStatus s w)]
  | error e => rfl

/-- Settles O19: the flags are read off the one completion each command word is. -/
theorem flagsWrittenByEveryCompletion : Obligations.FlagsWrittenByEveryCompletion := by
  refine ⟨fun i s t h => ?_, fun v s t e hv h => ?_, fun v w s t h => ?_⟩
  · rw [exec_next_iff] at h
    subst h
    refine ⟨?_, fun r hr => ?_, fun e he => ?_⟩
    · rw [complete_status, statusFb_packStatus, outcomeFb_commandFallback, commandFallback_iff]
    · rw [complete_status, statusErr_packStatus, hr, outcomeErr]
    · rw [complete_status, statusErr_packStatus, he, outcomeErr]
  · rcases runCommand_eq v s with ⟨i, hi, -, -⟩ | ⟨-, -, hrun⟩
    · rw [hv] at hi; cases hi
    · rw [hrun] at h
      obtain rfl := Host.Outcome.next.inj h
      simp [outcomeFb, outcomeErr, errCode]
  · rw [runCommand_setStatus, h]

end Sys2Proof.Machine

/-! The host port (spec/20_memory.md): the transactions that R56 refuses. -/

namespace Sys2Proof.Machine

theorem writeCsr_of_four_le {n : Nat} (h : 4 ≤ n) (cfg : Config) (v : U32) (s : State) :
    writeCsr cfg n v s = .refused (.noSuchCsr n) := by
  obtain ⟨k, rfl⟩ := Nat.exists_eq_add_of_le' h
  rfl

theorem readCsr_of_four_le {n : Nat} (h : 4 ≤ n) (s : State) : readCsr s n = none := by
  obtain ⟨k, rfl⟩ := Nat.exists_eq_add_of_le' h
  rfl

/-- A transaction outside the ranges of R42 is refused, whatever the state (R56). -/
theorem transact_refused_of_not_inRange {cfg : Config} {x : HostTxn} (h : x.inRange cfg = false) (s : State) :
    ∃ r, transact cfg x s = .refused r := by
  cases x with
  | wrin i b => exact ⟨_, if_neg (of_decide_eq_false h)⟩
  | rdin i => exact ⟨_, if_neg (of_decide_eq_false h)⟩
  | rdout i => exact ⟨_, if_neg (of_decide_eq_false h)⟩
  | wrout i b => exact ⟨_, rfl⟩
  | wrcsr n v => exact ⟨_, writeCsr_of_four_le (Nat.le_of_not_lt (of_decide_eq_false h)) ..⟩
  | rdcsr n =>
    have hnone : readCsr s n = none := readCsr_of_four_le (Nat.le_of_not_lt (of_decide_eq_false h)) s
    exact ⟨.noSuchCsr n, by simp only [transact, hnone]⟩
  | wrtset c v => cases h
  | rdtset c => cases h
  | reset => cases h

/-- A step whose first pending transaction is outside the ranges of R42 is refused. -/
theorem stepWith_refused_of_not_inRange {cfg : Config} {s : State} {x : HostTxn} {rest : List HostTxn}
    (hp : s.pending = x :: rest) (h : x.inRange cfg = false) : ∃ r, stepWith cfg s = .refused r := by
  rw [stepWith_cons hp]
  exact transact_refused_of_not_inRange h _

/-- Settles O12: each of the six transactions is outside the ranges of R42. -/
theorem outOfRangeTransactionsRefused : Obligations.OutOfRangeTransactionsRefused := by
  intro cfg s rest
  exact ⟨fun _ _ hi hp => stepWith_refused_of_not_inRange hp (decide_eq_false (Nat.not_lt.2 hi)),
    fun _ hi hp => stepWith_refused_of_not_inRange hp (decide_eq_false (Nat.not_lt.2 hi)),
    fun _ hi hp => stepWith_refused_of_not_inRange hp (decide_eq_false (Nat.not_lt.2 hi)),
    fun _ _ hn hp => stepWith_refused_of_not_inRange hp (decide_eq_false (Nat.not_lt.2 hn)),
    fun _ hn hp => stepWith_refused_of_not_inRange hp (decide_eq_false (Nat.not_lt.2 hn)),
    fun _ _ hp => stepWith_refused_of_not_inRange hp rfl⟩

end Sys2Proof.Machine

/-! Command words (spec/30_encoding.md): the words that are no command. -/

namespace Sys2Proof.Machine

/-- A write of a word to CMD runs it in the state that no longer counts the write as pending (R26). -/
theorem stepWith_writeCmd {cfg : Config} {s : State} {v : U32} {rest : List HostTxn}
    (h : s.pending = .wrcsr 0 v :: rest) :
    stepWith cfg s = runCommand v ((s.setPending rest).setReply .nothing) := by
  rw [stepWith_cons h]
  rfl

/-- The number of a command's word is one of the eight that R62 lists. -/
theorem toNat_encode_mem (i : Instr) : (encode i).toNat ∈ [1, 2, 3, 4, 5, 8, 9, 10] := by
  cases i <;> decide

/-- A word that R62 does not list completes with IllegalCommand (R63). -/
theorem runCommand_of_unlisted {v : U32} (h : v.toNat ∉ [1, 2, 3, 4, 5, 8, 9, 10]) (s : State) :
    runCommand v s = .next (complete (opcodeField v) false (.error .illegalCommand) s) := by
  rcases runCommand_eq v s with ⟨i, -, rfl, -⟩ | ⟨-, -, hrun⟩
  · exact absurd (toNat_encode_mem i) h
  · exact hrun

/-- Settles O7: an unlisted word is the encoding of no command, so its write is a failed completion, which
leaves no result and keeps IN, `IN_LEN` and TSET. -/
theorem illegalWordsCompleteWithCode3 : Obligations.IllegalWordsCompleteWithCode3 := by
  intro cfg s v rest hp hv
  refine ⟨_, (stepWith_writeCmd hp).trans (runCommand_of_unlisted hv _), ?_⟩
  exact ⟨holdsStatus_complete .., holdsResult_complete .., sameInput_complete ..,
    sameTset_complete_error _ _ _ _⟩

end Sys2Proof.Machine

/-! The address engine (spec/40_address_ops.md): EXPAND, CONTRACT, REV4 and REV6, their results, errors and frame. -/

namespace Sys2Proof.Machine

/-! ## What a text command leaves -/

/-- A command whose pseudocode yields a byte string completes with it as the result (R145). -/
theorem exec_of_bytes {i : Instr} {s : State} {r : Bytes} (h : commandOutcome i s = .ok (.bytes r)) :
    ∃ t, exec i s = .next t ∧ HoldsResult t r ∧ HoldsStatus t 0#4 (commandFallback i s) (opcodeOf i) ∧
      SameInput s t ∧ SameTset s t ∧ SameHost s t := by
  refine ⟨_, exec_eq_complete i s, ?_⟩
  rw [h]
  exact ⟨holdsResult_complete .., holdsStatus_complete .., sameInput_complete ..,
    sameTset_complete_bytes _ _ _ _, sameHost_complete ..⟩

/-- A command whose pseudocode raises an error completes without a result (R146). -/
theorem exec_of_error {i : Instr} {s : State} {e : ErrorKind} (h : commandOutcome i s = .error e) :
    ∃ t, exec i s = .next t ∧ HoldsResult t [] ∧ HoldsStatus t (errCode e) false (opcodeOf i) ∧
      SameInput s t ∧ SameTset s t ∧ SameHost s t := by
  refine ⟨_, exec_eq_complete i s, ?_⟩
  rw [h]
  exact ⟨holdsResult_complete .., holdsStatus_complete .., sameInput_complete ..,
    sameTset_complete_error _ _ _ _, sameHost_complete ..⟩

theorem HoldsResult.outLen_eq {t : State} {r : Bytes} {n : Nat} (h : HoldsResult t r) (hr : r.length = n)
    (hn : n < 2 ^ 32) : t.outLen = BitVec.ofNat 32 n := by
  rw [h.1, resultLength_of_lt (hr ▸ hn), hr]

theorem exec_unique {i : Instr} {s t t' : State} (h : exec i s = .next t) (h' : exec i s = .next t') : t = t' :=
  Host.Outcome.next.inj (h.symm.trans h')

theorem statusErr_of_exec {i : Instr} {s t : State} (h : exec i s = .next t) :
    statusErr t.status = outcomeErr (commandOutcome i s) := by
  rw [exec_next_iff] at h
  rw [h, complete_status, statusErr_packStatus]

theorem resultString_of_exec {i : Instr} {s t : State} {r : Bytes} (h : exec i s = .next t)
    (ho : commandOutcome i s = .ok (.bytes r)) (hr : r.length < 2 ^ 32) : resultString t = r := by
  rw [exec_next_iff] at h
  rw [h, ho]
  exact resultString_complete _ _ _ _ hr

/-! ## The pseudocode of the commands, by what the parser answers -/

section
variable {s : Bytes} {h : List U16}

theorem expandFn_of_some (hp : parseIPv6 s = some h) : expandFn s = .ok (.bytes (renderFull h)) := by
  simp only [expandFn, hp]

theorem expandFn_of_none (hp : parseIPv6 s = none) : expandFn s = .error .invalidAddress := by
  simp only [expandFn, hp]

theorem contractFn_of_some (hp : parseIPv6 s = some h) : contractFn s = .ok (.bytes (renderShort h)) := by
  simp only [contractFn, hp]

theorem contractFn_of_none (hp : parseIPv6 s = none) : contractFn s = .error .invalidAddress := by
  simp only [contractFn, hp]

theorem rev6Fn_of_some (hp : parseIPv6 s = some h) : rev6Fn s = .ok (.bytes (nibbleName (renderFull h))) := by
  simp only [rev6Fn, rev6Expansion, hp]

theorem rev6Fn_of_none (hp : parseIPv6 s = none) :
    rev6Fn s = .ok (.bytes (nibbleName (expandIncomplete s))) := by
  simp only [rev6Fn, rev6Expansion, hp]

theorem rev6Fallback_of_some (hp : parseIPv6 s = some h) : rev6Fallback s = false := by
  rw [rev6Fallback, hp, Option.isNone_some]

theorem rev6Fallback_of_none (hp : parseIPv6 s = none) : rev6Fallback s = true := by
  rw [rev6Fallback, hp, Option.isNone_none]

theorem rev4Fn_of_none (hp : parseIPv4 s = none) : rev4Fn s = .error .invalidAddress := by
  simp only [rev4Fn, hp]

theorem rev4Fn_of_some {q : Byte × Byte × Byte × Byte} (hp : parseIPv4 s = some q) :
    rev4Fn s = .ok (.bytes (join [dot] (split dot s).reverse ++ inAddrArpa)) := by
  simp only [rev4Fn, hp]

/-- REV4 moves the four octet tokens as text (R100). -/
theorem rev4Fn_octets {a b c d : Bytes} (ha : isDecOctet a = true) (hb : isDecOctet b = true)
    (hc : isDecOctet c = true) (hd : isDecOctet d = true) :
    rev4Fn (join [dot] [a, b, c, d]) = .ok (.bytes (join [dot] [d, c, b, a] ++ inAddrArpa)) := by
  have hp := parseIPv4_eq_some.mpr ⟨a, b, c, d, ha, hb, hc, hd, rfl, rfl⟩
  rw [rev4Fn_of_some hp, split_join (List.cons_ne_nil a _) (dot_not_mem_octets ha hb hc hd)]
  rfl

end

theorem outcomeErr_expandFn (s : Bytes) :
    outcomeErr (expandFn s) = if parseIPv6 s = none then 1#4 else 0#4 := by
  cases hp : parseIPv6 s with
  | none => rw [expandFn_of_none hp]; rfl
  | some h => rw [expandFn_of_some hp]; rfl

theorem outcomeErr_contractFn (s : Bytes) :
    outcomeErr (contractFn s) = if parseIPv6 s = none then 1#4 else 0#4 := by
  cases hp : parseIPv6 s with
  | none => rw [contractFn_of_none hp]; rfl
  | some h => rw [contractFn_of_some hp]; rfl

theorem outcomeErr_rev4Fn (s : Bytes) :
    outcomeErr (rev4Fn s) = if parseIPv4 s = none then 1#4 else 0#4 := by
  cases hp : parseIPv4 s with
  | none => rw [rev4Fn_of_none hp]; rfl
  | some q => rw [rev4Fn_of_some hp]; rfl

/-- The code 0 of a command that needs a literal shows that its operand is one (R111). -/
theorem exists_parseIPv6_of_code_zero {s : Bytes} (h : (if parseIPv6 s = none then 1#4 else 0#4) = 0#4) :
    ∃ G, parseIPv6 s = some G := by
  split at h
  · cases h
  · exact Option.ne_none_iff_exists'.mp ‹_›

/-- Settles O41: the code a command ends with is the code of its pseudocode's outcome. -/
theorem addressCommandErrors : Obligations.AddressCommandErrors := by
  intro s
  have herr := fun i => statusErr_of_exec (exec_eq_complete i s)
  exact ⟨⟨_, exec_eq_complete .expand s, (herr .expand).trans (outcomeErr_expandFn _)⟩,
    ⟨_, exec_eq_complete .expandi s, herr .expandi⟩,
    ⟨_, exec_eq_complete .contract s, (herr .contract).trans (outcomeErr_contractFn _)⟩,
    ⟨_, exec_eq_complete .rev4 s, (herr .rev4).trans (outcomeErr_rev4Fn _)⟩,
    ⟨_, exec_eq_complete .rev6 s, herr .rev6⟩⟩

/-- The six commands whose result is a text or a byte string yield no type set. -/
theorem commandOutcome_bytes_or_error {i : Instr} (s : State)
    (hi : i = .expand ∨ i = .expandi ∨ i = .contract ∨ i = .rev4 ∨ i = .rev6 ∨ i = .tbmenc) :
    (∃ r, commandOutcome i s = .ok (.bytes r)) ∨ ∃ e, commandOutcome i s = .error e := by
  rcases hi with rfl | rfl | rfl | rfl | rfl | rfl
  · cases hp : parseIPv6 (operandString s) with
    | none => exact .inr ⟨_, expandFn_of_none hp⟩
    | some h => exact .inl ⟨_, expandFn_of_some hp⟩
  · exact .inl ⟨_, rfl⟩
  · cases hp : parseIPv6 (operandString s) with
    | none => exact .inr ⟨_, contractFn_of_none hp⟩
    | some h => exact .inl ⟨_, contractFn_of_some hp⟩
  · cases hp : parseIPv4 (operandString s) with
    | none => exact .inr ⟨_, rev4Fn_of_none hp⟩
    | some q => exact .inl ⟨_, rev4Fn_of_some hp⟩
  · exact .inl ⟨_, rfl⟩
  · exact .inl ⟨_, rfl⟩

/-- Settles O42: both ways a text command can complete keep IN, `IN_LEN`, TSET and the host's side. -/
theorem textCommandsFrame : Obligations.TextCommandsFrame := by
  intro i s t hi ht
  rcases commandOutcome_bytes_or_error s hi with ⟨r, ho⟩ | ⟨e, ho⟩
  · obtain ⟨t', ht', hres, ⟨-, -, -, hlow, hhigh⟩, ⟨hin, hlen⟩, hset, hpend, hrep⟩ := exec_of_bytes ho
    obtain rfl : t' = t := exec_unique ht' ht
    exact ⟨hin, hlen, hset, hpend, hrep, ⟨r, hres, .inl ho⟩, hlow, hhigh⟩
  · obtain ⟨t', ht', hres, ⟨-, -, -, hlow, hhigh⟩, ⟨hin, hlen⟩, hset, hpend, hrep⟩ := exec_of_error ho
    obtain rfl : t' = t := exec_unique ht' ht
    exact ⟨hin, hlen, hset, hpend, hrep, ⟨[], hres, .inr ⟨rfl, e, ho⟩⟩, hlow, hhigh⟩

/-! ## Literals -/

/-- Settles O25: the parser run on each listed text. -/
theorem listedLiteralsAcceptedAndRejected : Obligations.ListedLiteralsAcceptedAndRejected := by
  unfold Obligations.ListedLiteralsAcceptedAndRejected
  decide +kernel

/-! ## The full form -/

theorem hexDigit_lowercase (d : BitVec 4) :
    (0x30 ≤ (hexDigit d).toNat ∧ (hexDigit d).toNat ≤ 0x39) ∨
      (0x61 ≤ (hexDigit d).toNat ∧ (hexDigit d).toNat ≤ 0x66) := by
  revert d; decide

theorem exists_hexDigit_of_mem_hex4 {v : U16} {b : Byte} (h : b ∈ hex4 v) : ∃ d, b = hexDigit d := by
  simp only [hex4, List.mem_cons, List.not_mem_nil, or_false] at h
  rcases h with h | h | h | h <;> exact ⟨_, h⟩

theorem length_renderFull_of_eight {h : List U16} (hl : h.length = 8) : (renderFull h).length = 39 := by
  rw [length_renderFull_eq, hl]

/-- Settles O27: the length is the sum of the groups and seven colons, and every byte of a group is the digit of a
4-bit value. -/
theorem fullFormIsEightGroupsOfFour : Obligations.FullFormIsEightGroupsOfFour := by
  refine fun h hl => ⟨rfl, length_renderFull_of_eight hl, fun g hg => ?_⟩
  obtain ⟨v, -, rfl⟩ := List.mem_map.mp hg
  refine ⟨length_hex4 v, fun b hb => ?_⟩
  obtain ⟨d, rfl⟩ := exists_hexDigit_of_mem_hex4 hb
  exact hexDigit_lowercase d

theorem parseIPv6_renderFull {h : List U16} (hl : h.length = 8) : parseIPv6 (renderFull h) = some h := by
  refine parseIPv6_whole (fun hnil => ?_) (groupsText_hex4 true h) hl
  have hlen := length_renderFull_of_eight hl
  rw [hnil] at hlen
  cases hlen

/-- Settles O28: the full form is eight hextet tokens joined by colons, so the parser reads their values. -/
theorem fullFormParsesBack : Obligations.FullFormParsesBack := fun _ => parseIPv6_renderFull

/-! ## EXPAND -/

theorem length_renderFull_of_parse {s : Bytes} {h : List U16} (hp : parseIPv6 s = some h) :
    (renderFull h).length = 39 :=
  length_renderFull_of_eight (length_of_parseIPv6 hp)

theorem resultString_expand {s t : State} {h : List U16} (hp : parseIPv6 (operandString s) = some h)
    (ht : exec .expand s = .next t) : resultString t = renderFull h :=
  resultString_of_exec ht (expandFn_of_some hp) (by rw [length_renderFull_of_parse hp]; decide)

/-- A hex digit written again from its value is the digit in lower case (R90). -/
theorem hexDigit_digitval {b : Byte} (h : isHexDigit b = true) :
    hexDigit (BitVec.ofNat 4 (digitval b)) = lowerHex b := by
  revert b; decide

theorem digitval_lt {b : Byte} (h : isHexDigit b = true) : digitval b < 16 := by
  revert b; decide

/-- The digits of a u16 given by its number (R15). -/
theorem hex4_ofNat (n : Nat) :
    hex4 (BitVec.ofNat 16 n) =
      [n / 4096, n / 256, n / 16, n].map (fun m => hexDigit (BitVec.ofNat 4 m)) := by
  have nibble : ∀ k ≤ 12, (BitVec.ofNat 16 n).extractLsb' k 4 = BitVec.ofNat 4 (n / 2 ^ k) := by
    intro k hk
    apply BitVec.eq_of_getLsbD_eq
    intro i hi
    rw [BitVec.getLsbD_extractLsb', BitVec.getLsbD_ofNat, BitVec.getLsbD_ofNat, Nat.testBit_div_two_pow]
    simp [hi, show k + i < 16 by omega, Nat.add_comm]
  simp [hex4, nibble]

/-- A token of four hex digits read and written again is the token in lower case (R90). -/
theorem hex4_hextetVal {u : Bytes} (hl : u.length = 4) (hx : u.all isHexDigit = true) :
    hex4 (hextetVal u) = u.map lowerHex := by
  obtain ⟨a, b, c, d, rfl⟩ := List.length_eq_four.mp hl
  simp only [List.all_cons, List.all_nil, Bool.and_true, Bool.and_eq_true] at hx
  obtain ⟨ha, hb, hc, hd⟩ := hx
  have mod16 : ∀ m q, BitVec.ofNat 4 (16 * q + m) = BitVec.ofNat 4 m := by
    intro m q
    apply BitVec.eq_of_toNat_eq
    simp only [BitVec.toNat_ofNat]
    omega
  have la := digitval_lt ha
  have lb := digitval_lt hb
  have lc := digitval_lt hc
  have ld := digitval_lt hd
  have hval : hexval [a, b, c, d] = 16 * (16 * (16 * digitval a + digitval b) + digitval c) + digitval d := by
    simp [hexval]
  rw [hextetVal, hex4_ofNat]
  generalize hexval [a, b, c, d] = n at hval ⊢
  have hna : n / 4096 = digitval a := by omega
  have hnb : n / 256 = 16 * digitval a + digitval b := by omega
  have hnc : n / 16 = 16 * (16 * digitval a + digitval b) + digitval c := by omega
  rw [List.map_cons, List.map_cons, List.map_cons, hna, hnb, hnc, hval]
  simp only [List.map_cons, List.map_nil, mod16, hexDigit_digitval, ha, hb, hc, hd]

/-- Hextet tokens joined by colons are text of their values (R82, R84). -/
theorem groupsText_join_of_isH16 (allowV4 : Bool) {T : List Bytes} (hT : T ≠ [])
    (h : ∀ u ∈ T, isH16 u = true) : GroupsText allowV4 (join [colon] T) (T.map hextetVal) :=
  .inr (.inl ⟨T, hT, h, rfl, rfl⟩)

theorem token_of_isH16 {T : List Bytes} (h : ∀ u ∈ T, isH16 u = true) : ∀ u ∈ T, u ≠ [] ∧ colon ∉ u :=
  fun u hu => ⟨isH16_ne_nil (h u hu), colon_not_mem_of_isH16 (h u hu)⟩

theorem join_ne_nil_of_isH16 {T : List Bytes} (hT : T ≠ []) (h : ∀ u ∈ T, isH16 u = true) :
    join [colon] T ≠ [] := by
  obtain ⟨b, r, hbr, -⟩ := join_head hT (token_of_isH16 h)
  simp [hbr]

theorem isH16_of_four {u : Bytes} (hl : u.length = 4) (hx : u.all isHexDigit = true) : isH16 u = true :=
  isH16_iff.mpr ⟨by omega, by omega, List.all_eq_true.mp hx⟩

/-- EXPAND of eight groups of four hex digits changes nothing but the case of the digits (R90). -/
theorem expandFn_of_full {T : List Bytes} (hl : T.length = 8)
    (h : ∀ u ∈ T, u.length = 4 ∧ u.all isHexDigit = true) :
    expandFn (join [colon] T) = .ok (.bytes (join [colon] (T.map (fun u => u.map lowerHex)))) := by
  have hT : T ≠ [] := List.ne_nil_of_length_pos (by omega)
  have h16 : ∀ u ∈ T, isH16 u = true := fun u hu => isH16_of_four (h u hu).1 (h u hu).2
  have hp : parseIPv6 (join [colon] T) = some (T.map hextetVal) :=
    parseIPv6_whole (join_ne_nil_of_isH16 hT h16) (groupsText_join_of_isH16 true hT h16) (by simp [hl, hextets])
  have hdigits : (T.map hextetVal).map hex4 = T.map (fun u => u.map lowerHex) := by
    rw [List.map_map]
    exact List.map_congr_left fun u hu => hex4_hextetVal (h u hu).1 (h u hu).2
  rw [expandFn_of_some hp, renderFull, hdigits]

/-- Settles O29. EXPAND of its own result is that result since the full form parses back to the hextets. -/
theorem expandGivesTheFullForm : Obligations.ExpandGivesTheFullForm := by
  refine ⟨fun s h hp => ?valid, fun s hp => ?invalid, fun s t s' t' ht herr hop ht' => ?idempotent,
    fun s T hl hT hop => ?full, ?examples⟩
  case valid =>
    obtain ⟨t, ht, hres, hrest⟩ := exec_of_bytes (i := .expand) (expandFn_of_some hp)
    exact ⟨t, ht, hres, hres.outLen_eq (length_renderFull_of_parse hp) (by decide), hrest⟩
  case invalid =>
    obtain ⟨t, ht, hres, hrest⟩ := exec_of_error (i := .expand) (expandFn_of_none hp)
    exact ⟨t, ht, hres, hres.1, hrest⟩
  case idempotent =>
    rw [statusErr_of_exec ht] at herr
    obtain ⟨h, hp⟩ := exists_parseIPv6_of_code_zero ((outcomeErr_expandFn _).symm.trans herr)
    have hr := resultString_expand hp ht
    have hp' : parseIPv6 (operandString s') = some h := by
      rw [hop, hr, parseIPv6_renderFull (length_of_parseIPv6 hp)]
    rw [hr, resultString_expand hp' ht']
  case full =>
    obtain ⟨t, ht, hres, -⟩ := exec_of_bytes (i := .expand) (hop ▸ expandFn_of_full hl hT)
    exact ⟨t, ht, hres⟩
  case examples => decide +kernel

/-! ## The longest zero run -/

/-- A run of zeros is taken whole: no zero follows it. -/
theorem getElem?_length_takeWhile_ne (l : List Bool) : l[(l.takeWhile id).length]? ≠ some true := by
  induction l with
  | nil => simp
  | cons b l ih =>
    cases b with
    | false => simp
    | true => simpa using ih

/-- What the loop answers is at least as long as any run of zeros at or after its index, and of two runs of equal
length it answers the later one (R93). -/
theorem longestRunFrom_dominates {z : List Bool} {fuel i a m : Nat} {best : Option Nat × Nat}
    (hf : z.length ≤ i + fuel) (hia : i ≤ a) (hm : 1 ≤ m) (hz : ∀ k, a ≤ k → k < a + m → z[k]? = some true) :
    m < (longestRunFrom z fuel i best).2 ∨
      m = (longestRunFrom z fuel i best).2 ∧ ∃ st, (longestRunFrom z fuel i best).1 = some st ∧ a ≤ st := by
  have hza : z[a]? = some true := hz a le_rfl (by omega)
  have halt : a < z.length := (List.getElem?_eq_some_iff.mp hza).1
  induction fuel generalizing i best with
  | zero => omega
  | succ fuel ih =>
    rw [longestRunFrom, if_pos (by omega)]
    split
    · obtain ⟨n, hn⟩ : ∃ n, n = ((z.drop i).takeWhile id).length := ⟨_, rfl⟩
      have hstop : z[i + n]? ≠ some true := by
        rw [hn, ← List.getElem?_drop]
        exact getElem?_length_takeWhile_ne _
      rw [← hn]
      by_cases hrun : a < i + n
      · have hmn : a + m ≤ i + n := by
          by_contra hgt
          exact hstop (hz (i + n) (by omega) (by omega))
        rcases longestRunFrom_cases z fuel (i + n) (if best.2 ≤ n then (some i, n) else best) with
          hb | ⟨st, k, hb, hle, -, hst, -⟩
        · rw [hb]
          split
          · exact (show m ≤ n by omega).lt_or_eq.imp_right fun heq => ⟨heq, i, rfl, by omega⟩
          · exact .inl (by omega)
        · rw [hb]
          have hnk : n ≤ k := by split at hle <;> omega
          exact (show m ≤ k by omega).lt_or_eq.imp_right fun heq => ⟨heq, st, rfl, by omega⟩
      · have hpos : n ≠ 0 := by
          rintro rfl
          rename_i hzi
          rw [Nat.add_zero] at hstop
          apply hstop
          simpa [List.getD, List.getElem?_eq_getElem (show i < z.length by omega)] using hzi
        exact ih (by omega) (by omega)
    · rename_i hzi
      have : i ≠ a := by
        rintro rfl
        simp [List.getD, hza] at hzi
      exact ih (by omega) (by omega)

/-- Every range of zero hextets is shorter than CONTRACT's run, or as long and starts no later (R93). -/
theorem longestZeroRun_dominates {h : List U16} {a m : Nat} (hm : 1 ≤ m) (hz : ZeroRange h a m) :
    m < (longestZeroRun h).2 ∨ m = (longestZeroRun h).2 ∧ ∃ st, (longestZeroRun h).1 = some st ∧ a ≤ st :=
  longestRunFrom_dominates (by simp) (Nat.zero_le a) hm
    fun k hak hkm => by simp [List.getElem?_map, hz.2 k hak hkm]

theorem longestZeroRun_cases (h : List U16) :
    longestZeroRun h = (none, 0) ∨ ∃ st n, longestZeroRun h = (some st, n) := by
  rcases longestRunFrom_cases (h.map (fun v => decide (v = 0#16))) h.length 0 (none, 0) with
    hb | ⟨st, n, hb, -⟩
  · exact .inl hb
  · exact .inr ⟨st, n, hb⟩

theorem zeroRange_longestZeroRun {h : List U16} {st n : Nat} (hr : longestZeroRun h = (some st, n)) :
    1 ≤ n ∧ ZeroRange h st n := by
  obtain ⟨hn, hle, hzeros⟩ := longestZeroRun_zeros hr
  refine ⟨hn, hle, fun k hst hk => ?_⟩
  have hget := congrArg (·[k - st]?) hzeros
  rwa [List.getElem?_take_of_lt (by omega), List.getElem?_drop, List.getElem?_replicate_of_lt (by omega),
    show st + (k - st) = k by omega] at hget

/-- CONTRACT replaces a run exactly when some hextet is zero (R93). -/
theorem longestZeroRun_eq_none_iff {h : List U16} : longestZeroRun h = (none, 0) ↔ 0#16 ∉ h := by
  constructor
  · intro hnone hmem
    obtain ⟨a, hlt, ha⟩ := List.getElem_of_mem hmem
    have hrange : ZeroRange h a 1 :=
      ⟨hlt, fun k hak hk => by rw [show k = a by omega, List.getElem?_eq_getElem hlt, ha]⟩
    rcases longestZeroRun_dominates le_rfl hrange with hlt | ⟨-, st, hst, -⟩
    · rw [hnone] at hlt; cases hlt
    · rw [hnone] at hst; cases hst
  · intro hmem
    rcases longestZeroRun_cases h with hnone | ⟨st, n, hr⟩
    · exact hnone
    · obtain ⟨hn, -, hzero⟩ := zeroRange_longestZeroRun hr
      exact absurd (List.mem_of_getElem? (hzero st le_rfl (by omega))) hmem

/-- Settles O31: the loop's answer is a run of zeros, and it dominates every other. -/
theorem longestZeroRunIsTheLastLongest : Obligations.LongestZeroRunIsTheLastLongest := by
  refine fun h _ => ⟨longestZeroRun_eq_none_iff, fun n hn => ?_, fun st n hr => ?_⟩
  · rcases longestZeroRun_cases h with hnone | ⟨st, m, hr⟩
    · exact congrArg Prod.snd (hn.symm.trans hnone)
    · rw [hr] at hn; cases hn
  · obtain ⟨hn, hrange⟩ := zeroRange_longestZeroRun hr
    refine ⟨hn, hrange, fun a m hm hz => ?_⟩
    have hdom := longestZeroRun_dominates hm hz
    rw [hr] at hdom
    simpa using hdom

/-! ## CONTRACT -/

theorem renderShort_of_none {h : List U16} (hr : longestZeroRun h = (none, 0)) : renderShort h = renderMin h := by
  simp only [renderShort, hr]

theorem renderShort_of_run {h : List U16} {st n : Nat} (hr : longestZeroRun h = (some st, n)) :
    renderShort h = renderMin (h.take st) ++ [colon, colon] ++ renderMin (h.drop (st + n)) := by
  simp only [renderShort, hr]

/-- The length of CONTRACT's text (R94): longest with no run, shortest when all eight hextets are one run. -/
theorem length_renderShort {h : List U16} (hl : h.length = 8) :
    2 ≤ (renderShort h).length ∧ (renderShort h).length ≤ 39 := by
  rcases longestZeroRun_cases h with hr | ⟨st, n, hr⟩
  · rw [renderShort_of_none hr]
    have hge := length_renderMin_ge h
    have hle := length_renderMin_le h
    omega
  · obtain ⟨hn, hfit, -⟩ := longestZeroRun_zeros hr
    have hleft := length_renderMin_le (h.take st)
    have hright := length_renderMin_le (h.drop (st + n))
    rw [List.length_take] at hleft
    rw [List.length_drop] at hright
    simp only [renderShort_of_run hr, List.length_append, List.length_cons, List.length_nil]
    omega

/-- The sides of the `::` and the run it stands for are all the hextets, so CONTRACT's text reads back (R97). -/
theorem parseIPv6_renderShort {h : List U16} (hl : h.length = 8) : parseIPv6 (renderShort h) = some h := by
  rcases longestZeroRun_cases h with hr | ⟨st, n, hr⟩
  · have hlen := length_renderShort hl
    refine parseIPv6_whole (List.ne_nil_of_length_pos (by omega)) ?_ hl
    rw [renderShort_of_none hr]
    exact groupsText_hexmin true h
  · obtain ⟨hn, hfit, -⟩ := longestZeroRun_zeros hr
    have hside : (h.take st).length = st ∧ (h.drop (st + n)).length = 8 - st - n := by
      rw [List.length_take, List.length_drop]
      omega
    rw [renderShort_of_run hr, renderMin, renderMin, parseIPv6_sides (groupsText_hexmin false (h.take st))
      (groupsText_hexmin true (h.drop (st + n))) (by rw [hside.1, hside.2, hextets]; omega), hside.1, hside.2,
      show hextets - st - (8 - st - n) = n by rw [hextets]; omega, hextets_around_run hr]

section
variable {s t : State} {h : List U16} (hp : parseIPv6 (operandString s) = some h)
include hp

theorem resultString_contract (ht : exec .contract s = .next t) : resultString t = renderShort h :=
  resultString_of_exec ht (contractFn_of_some hp)
    (lt_of_le_of_lt (length_renderShort (length_of_parseIPv6 hp)).2 (by decide))

/-- What EXPAND gives is a literal of the same hextets (R97). -/
theorem parseIPv6_expand (ht : exec .expand s = .next t) : parseIPv6 (resultString t) = some h := by
  rw [resultString_expand hp ht, parseIPv6_renderFull (length_of_parseIPv6 hp)]

/-- What CONTRACT gives is a literal of the same hextets (R97). -/
theorem parseIPv6_contract (ht : exec .contract s = .next t) : parseIPv6 (resultString t) = some h := by
  rw [resultString_contract hp ht, parseIPv6_renderShort (length_of_parseIPv6 hp)]

end

/-- Settles O32. CONTRACT of EXPAND's result is CONTRACT's result since EXPAND keeps the hextets. -/
theorem contractGivesTheShorthand : Obligations.ContractGivesTheShorthand := by
  refine ⟨fun s h hp => ?valid, fun s hp => ?invalid, fun s t u v w ht herr hu hv hw => ?afterExpand, ?examples⟩
  case valid =>
    obtain ⟨t, ht, hres, hrest⟩ := exec_of_bytes (i := .contract) (contractFn_of_some hp)
    obtain ⟨hge, hle⟩ := length_renderShort (length_of_parseIPv6 hp)
    exact ⟨t, renderShort h, ht, hres, renderShort_of_none, fun st n => renderShort_of_run, hge, hle, hrest⟩
  case invalid => exact exec_of_error (i := .contract) (contractFn_of_none hp)
  case afterExpand =>
    rw [statusErr_of_exec ht] at herr
    obtain ⟨h, hp⟩ := exists_parseIPv6_of_code_zero ((outcomeErr_contractFn _).symm.trans herr)
    have hpv : parseIPv6 (operandString v) = some h := hv ▸ parseIPv6_expand hp hu
    rw [resultString_contract hpv hw, resultString_contract hp ht]
  case examples => decide +kernel

/-- Hextets written short and joined by single colons hold no `::` (R95). -/
theorem doubleColons_renderMin (h : List U16) : doubleColons 0 (renderMin h) = [] := by
  obtain ⟨T, hT, hjoin⟩ := groupsText_join (groupsText_hexmin true h)
  rw [renderMin, hjoin, doubleColons_join hT]

/-- Settles O33: with no zero hextet there is no run, and otherwise the one `::` stands between the run's sides. -/
theorem contractHasOneDoubleColonIffSomeZero : Obligations.ContractHasOneDoubleColonIffSomeZero := by
  intro s t h hp ht
  rw [resultString_contract hp ht]
  refine ⟨fun hzero => ?_, fun hzero => ?_⟩
  · rw [renderShort_of_none (longestZeroRun_eq_none_iff.mpr hzero)]
    exact ⟨rfl, doubleColons_renderMin h⟩
  · rcases longestZeroRun_cases h with hr | ⟨st, n, hr⟩
    · exact absurd hzero (longestZeroRun_eq_none_iff.mp hr)
    · rw [renderShort_of_run hr]
      exact ⟨_, doubleColons_sides (groupsText_hexmin true _) (groupsText_hexmin true _)⟩

/-- Settles O34: both commands keep the hextets, so CONTRACT after EXPAND does too. -/
theorem contractAndExpandKeepTheAddress : Obligations.ContractAndExpandKeepTheAddress := by
  intro s h hp
  have hte := exec_eq_complete .expand s
  have htc := exec_eq_complete .contract s
  refine ⟨_, _, hte, parseIPv6_expand hp hte, htc, parseIPv6_contract hp htc, fun s' hop => ?_⟩
  have hp' : parseIPv6 (operandString s') = some h := hop ▸ parseIPv6_expand hp hte
  have ht' := exec_eq_complete .contract s'
  exact ⟨_, h, ht', parseIPv6_contract hp' ht', rfl, rfl⟩

/-! ## REV4 -/

/-- The length of REV4's name (R100): one to three bytes an octet, three dots and the suffix. -/
theorem length_rev4_name {a b c d : Bytes} (ha : isDecOctet a = true) (hb : isDecOctet b = true)
    (hc : isDecOctet c = true) (hd : isDecOctet d = true) :
    21 ≤ (join [dot] [d, c, b, a] ++ inAddrArpa).length ∧ (join [dot] [d, c, b, a] ++ inAddrArpa).length ≤ 29 := by
  have la := isDecOctet_length ha
  have lb := isDecOctet_length hb
  have lc := isDecOctet_length hc
  have ld := isDecOctet_length hd
  simp only [List.length_append, length_join, length_inAddrArpa, List.map_cons, List.map_nil, List.sum_cons,
    List.sum_nil, List.length_cons, List.length_nil]
  omega

/-- Settles O36: the operands REV4 accepts are exactly the dotted quads, by the grammar. -/
theorem rev4ReversesTheOctets : Obligations.Rev4ReversesTheOctets := by
  refine ⟨fun s a b c d ha hb hc hd hop => ?quad, fun s hno => ?other, ?rejected, by decide +kernel, by decide +kernel⟩
  case quad =>
    obtain ⟨t, ht, hres, hrest⟩ := exec_of_bytes (i := .rev4) (s := s) (hop ▸ rev4Fn_octets ha hb hc hd)
    obtain ⟨hge, hle⟩ := length_rev4_name ha hb hc hd
    exact ⟨t, ht, hres, hge, hle, hrest⟩
  case other =>
    refine exec_of_error (i := .rev4) (rev4Fn_of_none (Option.eq_none_iff_forall_ne_some.mpr fun q hq => hno ?_))
    obtain ⟨a, b, c, d, ha, hb, hc, hd, hop, -⟩ := parseIPv4_eq_some.mp hq
    exact ⟨a, b, c, d, ha, hb, hc, hd, hop⟩
  case rejected => decide +kernel

/-! ## REV6 -/

/-- REV6 on a valid literal completes with the name of the full form and `FB = 0` (R105). -/
theorem exec_rev6_of_some {s : State} {h : List U16} (hp : parseIPv6 (operandString s) = some h) :
    ∃ t, exec .rev6 s = .next t ∧ HoldsResult t (nibbleName (renderFull h)) ∧
      HoldsStatus t 0#4 false 0x05#8 ∧ SameInput s t ∧ SameTset s t ∧ SameHost s t :=
  rev6Fallback_of_some hp ▸ exec_of_bytes (i := .rev6) (rev6Fn_of_some hp)

/-- REV6 on any other operand completes with the name of the padded fragment and `FB = 1` (R108). -/
theorem exec_rev6_of_none {s : State} (hp : parseIPv6 (operandString s) = none) :
    ∃ t, exec .rev6 s = .next t ∧ HoldsResult t (nibbleName (expandIncomplete (operandString s))) ∧
      HoldsStatus t 0#4 true 0x05#8 ∧ SameInput s t ∧ SameTset s t ∧ SameHost s t :=
  rev6Fallback_of_none hp ▸ exec_of_bytes (i := .rev6) (rev6Fn_of_none hp)

theorem nibbleName_renderFull (h : List U16) :
    nibbleName (renderFull h) = join [dot] (chars (h.flatMap hex4).reverse) ++ ip6Arpa := by
  rw [nibbleName, filter_renderFull]

theorem length_nibbleName_renderFull {h : List U16} (hl : h.length = 8) :
    (nibbleName (renderFull h)).length = 73 := by
  have hdigits : (h.flatMap hex4).length = 32 := by
    rw [List.flatMap, List.length_flatten, sum_map_length_hex4, hl]
  rw [length_nibbleName, filter_renderFull, hdigits]

/-- Settles O37: both paths of REV6, and a padded fragment always has a byte that is no colon. -/
theorem rev6ReversesTheNibbles : Obligations.Rev6ReversesTheNibbles := by
  refine ⟨fun s h hp => ?valid, fun s hp => ?fallback, by decide +kernel, by decide +kernel⟩
  case valid =>
    obtain ⟨t, ht, hres, hrest⟩ := exec_rev6_of_some hp
    exact ⟨t, ht, nibbleName_renderFull h ▸ hres,
      hres.outLen_eq (length_nibbleName_renderFull (length_of_parseIPv6 hp)) (by decide), hrest⟩
  case fallback =>
    obtain ⟨t, ht, hres, hrest⟩ := exec_rev6_of_none hp
    have hlen := (length_filter_expandIncomplete (operandString s)).1
    exact ⟨t, _, _, ht, rfl, rfl, List.ne_nil_of_length_pos (by omega), hres, hrest⟩

/-- Settles O38: `ERR` is 0 on both paths of REV6, and `FB` tells them apart. -/
theorem rev6FallsBackInsteadOfFailing : Obligations.Rev6FallsBackInsteadOfFailing := by
  refine ⟨fun s t ht => ?_, by decide +kernel, by decide +kernel⟩
  cases hp : parseIPv6 (operandString s) with
  | some h =>
    obtain ⟨t', ht', -, ⟨herr, hfb, -⟩, -⟩ := exec_rev6_of_some hp
    obtain rfl : t' = t := exec_unique ht' ht
    exact ⟨herr, by simp [hfb], by simp⟩
  | none =>
    obtain ⟨t', ht', hres, ⟨herr, hfb, -⟩, -⟩ := exec_rev6_of_none hp
    obtain rfl : t' = t := exec_unique ht' ht
    exact ⟨herr, by simp [hfb], fun _ => ⟨_, rfl, hres⟩⟩

/-- Hextet tokens joined by single colons are a literal only if they are eight (R85). -/
theorem parseIPv6_join_of_length_ne {T : List Bytes} (hT : T ≠ []) (h : ∀ u ∈ T, isH16 u = true)
    (hl : T.length ≠ hextets) : parseIPv6 (join [colon] T) = none := by
  have hlen : (T.map hextetVal).length ≠ hextets := by rwa [List.length_map]
  unfold parseIPv6
  rw [if_neg (join_ne_nil_of_isH16 hT h), doubleColons_join (token_of_isH16 h)]
  simp only [groups_eq_some.mpr (groupsText_join_of_isH16 true hT h), if_neg hlen]

theorem lpad4_eq (u : Bytes) : lpad4 u = List.replicate (4 - u.length) zeroDigit ++ u := by
  unfold lpad4
  split
  · rw [Nat.sub_eq_zero_of_le ‹_›, List.replicate_zero, List.nil_append]
  · rfl

/-- The name of a fragment of tokens (R109): each padded on its own, and all together reversed. -/
theorem nibbleName_expandIncomplete_join {T : List Bytes} (hT : T ≠ []) (h : ∀ u ∈ T, colon ∉ u) :
    nibbleName (expandIncomplete (join [colon] T)) =
      join [dot] (chars (T.flatMap (fun u => List.replicate (4 - u.length) 0x30#8 ++ u)).reverse) ++ ip6Arpa := by
  have hpad : lpad4 = fun u => List.replicate (4 - u.length) 0x30#8 ++ u := funext lpad4_eq
  rw [nibbleName, filter_expandIncomplete, split_join hT h, hpad, List.flatMap]

/-- Settles O39: at most seven hextets are no literal, so REV6 falls back to their padded tokens. -/
theorem rev6OfAPrefixOfHextets : Obligations.Rev6OfAPrefixOfHextets := by
  refine ⟨fun s T hT hl h hop => ?_, by decide +kernel⟩
  have hp : parseIPv6 (operandString s) = none :=
    hop ▸ parseIPv6_join_of_length_ne hT h (by rw [hextets]; omega)
  obtain ⟨t, ht, hres, hstatus, -⟩ := exec_rev6_of_none hp
  rw [hop, nibbleName_expandIncomplete_join hT fun u hu => colon_not_mem_of_isH16 (h u hu)] at hres
  exact ⟨t, ht, hstatus, hres⟩

end Sys2Proof.Machine

/-! The bitmap engine (spec/41_type_bitmap_ops.md): the windows TBMENC writes and their lengths, TBMDEC and TBMENC
one after the other, and TSETCLR. -/

namespace Sys2Proof.Machine

/-! ## The bits of a bitmap -/

/-- Local bit `i` is set in a bitmap (R44): what `WindowsHave` asks of a window. -/
def BitSet (bm : Bytes) (i : Nat) : Prop := ∃ b, bm[i / 8]? = some b ∧ b &&& bitMask i ≠ 0x00#8

/-- The last bitmap byte is there and is not zero (R125): what `WindowsMinimal` asks of a window. -/
def EndsNonzero (bm : Bytes) : Prop := ∃ b, bm.getLast? = some b ∧ b ≠ 0x00#8

theorem windowsHave_iff {W : List (Byte × Bytes)} {c : U16} :
    WindowsHave W c ↔ ∃ w ∈ W, w.1 = windowOf c ∧ BitSet w.2 (localBit c).toNat := Iff.rfl

theorem windowsMinimal_iff {W : List (Byte × Bytes)} : WindowsMinimal W ↔ ∀ w ∈ W, EndsNonzero w.2 := Iff.rfl

theorem BitSet.lt_length {bm : Bytes} {i : Nat} (h : BitSet bm i) : i / 8 < bm.length := by
  obtain ⟨b, hb, -⟩ := h
  exact (List.getElem?_eq_some_iff.mp hb).1

theorem exists_bitMask_of_ne_zero {b : Byte} (h : b ≠ 0x00#8) : ∃ q, q < 8 ∧ b &&& bitMask q ≠ 0x00#8 := by
  by_contra! hno
  refine h (BitVec.eq_of_getLsbD_eq fun j hj => ?_)
  have hoff := mt (and_bitMask_ne_zero b (q := 7 - j) (by omega)).mpr (not_not.mpr (hno _ (by omega)))
  rw [show 7 - (7 - j) = j by omega] at hoff
  simpa using hoff

/-- A bitmap ends in a non-zero byte exactly when its last byte has a bit set. -/
theorem endsNonzero_iff {bm : Bytes} : EndsNonzero bm ↔ ∃ i, BitSet bm i ∧ i / 8 + 1 = bm.length := by
  unfold EndsNonzero
  rw [List.getLast?_eq_getElem?]
  constructor
  · rintro ⟨b, hb, hne⟩
    obtain ⟨q, hq, hbit⟩ := exists_bitMask_of_ne_zero hne
    obtain ⟨hlt, -⟩ := List.getElem?_eq_some_iff.mp hb
    have hbyte : (8 * (bm.length - 1) + q) / 8 = bm.length - 1 := by omega
    refine ⟨8 * (bm.length - 1) + q, ⟨b, by rwa [hbyte], ?_⟩, by omega⟩
    rwa [← bitMask_mod, show (8 * (bm.length - 1) + q) % 8 = q by omega]
  · rintro ⟨i, ⟨b, hb, hbit⟩, hlen⟩
    refine ⟨b, by rwa [← hlen], ?_⟩
    rintro rfl
    exact hbit (by simp)

/-- Two bitmaps of one length with the same bits are the same bytes. -/
theorem bitmap_eq_of_bitSet_iff {bm bm' : Bytes} (hlen : bm.length = bm'.length)
    (h : ∀ i, BitSet bm i ↔ BitSet bm' i) : bm = bm' := by
  refine bitmap_ext hlen fun k q _ hq => ?_
  have hbit := h (8 * k + q)
  unfold BitSet at hbit
  rwa [← bitMask_mod, show (8 * k + q) / 8 = k by omega, show (8 * k + q) % 8 = q by omega] at hbit

/-- Every window number and local bit are those of a code (R123). -/
theorem exists_code (w : Byte) {i : Nat} (hi : i < 256) : ∃ c, windowOf c = w ∧ (localBit c).toNat = i := by
  have hsum : 8 * (i / 8) + i % 8 = i := Nat.div_add_mod i 8
  exact ⟨codeAt w (i / 8) (i % 8), windowOf_codeAt (by omega), by rw [toNat_localBit_codeAt (by omega), hsum]⟩

/-! ## The windows TBMENC writes -/

section
variable {S : TypeSet} {v : Byte × Bytes} (hv : v ∈ windowsOf S)
include hv

theorem length_of_mem_windowsOf : v.2.length = highestBit (localBits S v.1) / 8 + 1 := by
  rw [(mem_windowsOf.mp hv).2, length_bitmapBytes]

/-- The bits of a window TBMENC writes are the local bits of the set there (R124). -/
theorem bitSet_of_mem_windowsOf {i : Nat} : BitSet v.2 i ↔ i ∈ localBits S v.1 := by
  obtain ⟨-, hbm⟩ := mem_windowsOf.mp hv
  have hlen := length_of_mem_windowsOf hv
  have hbit (hi : i / 8 < highestBit (localBits S v.1) / 8 + 1) : BitSet v.2 i ↔ i ∈ localBits S v.1 :=
    hbm ▸ bitmapBytes_bit hi
  constructor
  · intro h
    exact (hbit (hlen ▸ h.lt_length)).mp h
  · intro h
    exact (hbit (Nat.lt_succ_of_le (Nat.div_le_div_right (le_highestBit h)))).mpr h

/-- The highest local bit lies in the last byte, so TBMENC never writes a trailing zero byte (R125). -/
theorem endsNonzero_of_mem_windowsOf : EndsNonzero v.2 :=
  endsNonzero_iff.mpr ⟨_, (bitSet_of_mem_windowsOf hv).mpr (highestBit_mem (mem_windowsOf.mp hv).1),
    (length_of_mem_windowsOf hv).symm⟩

end

theorem windowsMinimal_windowsOf (S : TypeSet) : WindowsMinimal (windowsOf S) :=
  fun _ hv => endsNonzero_of_mem_windowsOf hv

/-- TBMENC's windows are windows TBMDEC accepts (R125, R126). -/
theorem windowsOk_windowsOf (S : TypeSet) : WindowsOk (windowsOf S) := by
  refine ⟨List.pairwise_filterMap.mpr (List.pairwise_lt_range.imp_of_mem ?_), fun v hv => ?_⟩
  · intro a b ha hb hab v hv w hw
    rw [List.mem_range] at ha hb
    rw [windowFor_fst hv, windowFor_fst hw, BitVec.toNat_ofNat, BitVec.toNat_ofNat]
    omega
  · have hlt := highestBit_lt (mem_windowsOf.mp hv).1
    rw [length_of_mem_windowsOf hv, winMaxBytes]
    omega

theorem exists_mem_windowsOf {S : TypeSet} {w : Byte} (h : localBits S w ≠ []) : ∃ bm, (w, bm) ∈ windowsOf S :=
  ⟨bitmapBytes (highestBit (localBits S w) / 8 + 1) (localBits S w), mem_windowsOf.mpr ⟨h, rfl⟩⟩

/-- TBMENC's windows have exactly the codes of the set (R124). -/
theorem windowsHave_windowsOf {S : TypeSet} {c : U16} : WindowsHave (windowsOf S) c ↔ c ∈ S := by
  rw [windowsHave_iff]
  constructor
  · rintro ⟨v, hv, hnum, hbit⟩
    rw [bitSet_of_mem_windowsOf hv, hnum] at hbit
    exact localBit_mem_localBits.mp hbit
  · intro hc
    have hmem := localBit_mem_localBits.mpr hc
    obtain ⟨bm, hv⟩ := exists_mem_windowsOf (List.ne_nil_of_mem hmem)
    exact ⟨_, hv, rfl, (bitSet_of_mem_windowsOf hv).mpr hmem⟩

/-- An accepted window that ends in a non-zero byte has the bit of some code set. -/
theorem exists_code_of_endsNonzero {w : Byte × Bytes} (hlen : w.2.length ≤ winMaxBytes) (h : EndsNonzero w.2) :
    ∃ c, windowOf c = w.1 ∧ WindowsHave [w] c := by
  obtain ⟨i, hbit, hi⟩ := endsNonzero_iff.mp h
  obtain ⟨c, hnum, rfl⟩ := exists_code w.1 (i := i) (by unfold winMaxBytes at hlen; omega)
  exact ⟨c, hnum, windowsHave_iff.mpr ⟨w, List.mem_singleton_self w, hnum.symm, hbit⟩⟩

/-- Settles O45: the result is the wire form of the encoder's windows. -/
theorem tbmencGivesMinimalWindows : Obligations.TbmencGivesMinimalWindows := by
  refine ⟨fun s => ?_, fun S S' h => ?_⟩
  · obtain ⟨t, ht, hres, hstatus, hin, hset, hhost⟩ := exec_of_bytes (i := .tbmenc) (s := s) rfl
    rw [operandSet, encodeSet_eq_wireBytes] at hres
    have hok := windowsOk_windowsOf s.tset
    refine ⟨t, windowsOf s.tset, ht, hres, hok, windowsMinimal_windowsOf _, fun w hw => ?_, fun c => ?_, hstatus,
      hin, hset, hhost⟩
    · exact exists_code_of_endsNonzero (hok.2 w hw).2 (endsNonzero_of_mem_windowsOf hw)
    · rw [windowsHave_windowsOf, TypeSet.test_iff]
  · have hmem : ∀ c, c ∈ S ↔ c ∈ S' := fun c => by rw [← TypeSet.test_iff, ← TypeSet.test_iff, h c]
    rw [tbmencFn, tbmencFn, encodeSet_congr hmem]

/-! ## The length of TBMENC's result -/

theorem length_encodeWindow (S : TypeSet) (w : Byte) : (encodeWindow S w).length =
    if localBits S w = [] then 0 else 2 + (highestBit (localBits S w) / 8 + 1) := by
  rw [encodeWindow_eq, windowFor]
  split
  · rfl
  · simp +arith [wireBytes]

theorem length_encodeWindow_le (S : TypeSet) (w : Byte) : (encodeWindow S w).length ≤ 34 := by
  rw [length_encodeWindow]
  split
  · exact Nat.zero_le _
  · have := highestBit_lt ‹_›
    omega

theorem length_encodeSet (S : TypeSet) : (encodeSet S).length =
    ((List.range 256).map fun w => (encodeWindow S (BitVec.ofNat 8 w)).length).sum := by
  rw [encodeSet, List.length_flatMap]

theorem length_encodeSet_le (S : TypeSet) : (encodeSet S).length ≤ 8704 := by
  rw [length_encodeSet]
  refine (List.sum_le_card_nsmul _ 34 fun n hn => ?_).trans (by simp)
  obtain ⟨w, -, rfl⟩ := List.mem_map.mp hn
  exact length_encodeWindow_le S _

/-- A window that contains local bit 255 is written with all 32 bitmap bytes (R128). -/
theorem length_encodeWindow_of_full {S : TypeSet} {w : Byte} (h : 255 ∈ localBits S w) :
    (encodeWindow S w).length = 34 := by
  have hne := List.ne_nil_of_mem h
  have hge := le_highestBit h
  have hlt := highestBit_lt hne
  rw [length_encodeWindow, if_neg hne]
  omega

theorem length_encodeSet_of_full {S : TypeSet} (h : ∀ w : Byte, 255 ∈ localBits S w) :
    (encodeSet S).length = 8704 := by
  rw [length_encodeSet, List.sum_eq_card_nsmul _ 34 fun n hn => ?_]
  · simp
  · obtain ⟨w, -, rfl⟩ := List.mem_map.mp hn
    exact length_encodeWindow_of_full (h _)

theorem mem_localBits_of_code_mem {S : TypeSet} {w : Byte} {i : Nat} (hi : i < 256)
    (h : BitVec.ofNat 16 (256 * w.toNat + i) ∈ S) : i ∈ localBits S w := by
  have hw := w.isLt
  refine mem_localBits.mpr ⟨_, h, BitVec.eq_of_toNat_eq ?_, ?_⟩
  · rw [toNat_windowOf, BitVec.toNat_ofNat]
    omega
  · rw [toNat_localBit, BitVec.toNat_ofNat]
    omega

/-- Settles O46: the result is the windows one after the other, and each takes at most 34 bytes. -/
theorem tbmencResultLength : Obligations.TbmencResultLength := by
  refine fun S => ⟨_, rfl, length_encodeSet_le S, ?_, fun h => ?_, fun cfg ⟨_, _, hout⟩ => ?_⟩
  · simp only [length_encodeSet, length_encodeWindow]
  · exact length_encodeSet_of_full fun w => mem_localBits_of_code_mem (by omega) (h w.toNat w.isLt)
  · exact (length_encodeSet_le S).trans hout

/-! ## Commands that yield a type set -/

/-- A command whose pseudocode yields a type set completes with it in TSET and no result string (R145). -/
theorem exec_of_typeSet {i : Instr} {s : State} {S : TypeSet} (h : commandOutcome i s = .ok (.typeSet S)) :
    ∃ t, exec i s = .next t ∧ t.tset = S ∧ HoldsResult t [] ∧
      HoldsStatus t 0#4 (commandFallback i s) (opcodeOf i) ∧ SameInput s t ∧ SameHost s t := by
  refine ⟨_, exec_eq_complete i s, ?_⟩
  rw [h]
  exact ⟨complete_tset .., holdsResult_complete .., holdsStatus_complete .., sameInput_complete ..,
    sameHost_complete ..⟩

theorem encodeSet_nil : encodeSet [] = [] := List.flatMap_eq_nil_iff.mpr fun _ _ => rfl

/-- Settles O49: the empty set has no window to encode. -/
theorem tsetclrEmptiesTheSet : Obligations.TsetclrEmptiesTheSet := by
  intro s
  obtain ⟨t, ht, hset, hres, hstatus, hin, hhost⟩ := exec_of_typeSet (i := .tsetclr) (s := s) rfl
  have henc : commandOutcome .tbmenc t = .ok (.bytes []) := by
    rw [commandOutcome, tbmencFn, operandSet, hset, encodeSet_nil]
  obtain ⟨u, hu, hempty, -⟩ := exec_of_bytes henc
  exact ⟨t, ht, fun c => by rw [hset]; rfl, hres, hres.1, hstatus, hin, hhost, u, hu, hempty⟩

/-! ## TBMENC of a decoded byte string -/

theorem tbmdecFn_wireBytes {W : List (Byte × Bytes)} (h : WindowsOk W) :
    tbmdecFn (wireBytes W) = .ok (.typeSet (windowCodes W)) := by
  simp only [tbmdecFn, decodeSet_wireBytes h]

theorem windows_of_tbmdecFn {b : Bytes} {S : TypeSet} (h : tbmdecFn b = .ok (.typeSet S)) :
    ∃ W, WindowsOk W ∧ b = wireBytes W ∧ S = windowCodes W := by
  unfold tbmdecFn at h
  split at h
  · cases h
    exact windows_of_decodeSet ‹_›
  · cases h

/-- Accepted windows with the same number are the same window. -/
theorem WindowsOk.eq_of_number {W : List (Byte × Bytes)} (hW : WindowsOk W) {v w : Byte × Bytes} (hv : v ∈ W)
    (hw : w ∈ W) (h : v.1 = w.1) : v = w := by
  have hnodup : (W.map Prod.fst).Nodup :=
    List.pairwise_map.mpr (hW.1.imp fun hlt heq => absurd (congrArg BitVec.toNat heq) hlt.ne)
  exact List.inj_on_of_nodup_map hnodup hv hw h

/-- Windows with strictly ascending numbers are determined by which windows they are. -/
theorem windows_ext {V W : List (Byte × Bytes)} (hV : V.Pairwise fun a b => a.1.toNat < b.1.toNat)
    (hW : W.Pairwise fun a b => a.1.toNat < b.1.toNat) (h : ∀ w, w ∈ V ↔ w ∈ W) : V = W := by
  have nodup {U : List (Byte × Bytes)} (hU : U.Pairwise fun a b => a.1.toNat < b.1.toNat) : U.Nodup :=
    hU.imp fun hlt heq => by simp [heq] at hlt
  exact ((List.perm_ext_iff_of_nodup (nodup hV) (nodup hW)).mpr h).eq_of_pairwise
    (fun _ _ _ _ hlt hgt => absurd hgt hlt.asymm) hV hW

theorem mem_windowsOf_iff_windowFor {S : TypeSet} {v : Byte × Bytes} :
    v ∈ windowsOf S ↔ windowFor S v.1 = some v := by
  rw [mem_windowsOf, windowFor]
  split
  · exact ⟨fun ⟨hne, _⟩ => absurd ‹_› hne, nofun⟩
  · exact ⟨fun ⟨_, hbm⟩ => congrArg some (Prod.ext rfl hbm.symm),
      fun h => ⟨‹_›, (congrArg Prod.snd (Option.some.inj h)).symm⟩⟩

theorem wireBytes_filterMap_windowFor (S : TypeSet) (W : List (Byte × Bytes)) :
    wireBytes (W.filterMap fun w => windowFor S w.1) = W.flatMap fun w => encodeWindow S w.1 := by
  induction W with
  | nil => rfl
  | cons w W ih =>
    rw [List.flatMap_cons, ← ih, encodeWindow_eq, ← wireBytes_append, List.filterMap_cons]
    cases windowFor S w.1 <;> rfl

section
variable {W : List (Byte × Bytes)} (hW : WindowsOk W)
include hW

/-- TBMENC of the codes of accepted windows writes no window beside theirs. -/
theorem windowsOf_windowCodes : windowsOf (windowCodes W) = W.filterMap fun w => windowFor (windowCodes W) w.1 := by
  refine windows_ext (windowsOk_windowsOf _).1 (hW.1.filterMap _ fun a b hlt v hv w hw => ?_) fun v => ?_
  · rwa [windowFor_fst hv, windowFor_fst hw]
  · rw [mem_windowsOf_iff_windowFor, List.mem_filterMap]
    constructor
    · intro hv
      obtain ⟨i, hi⟩ := List.exists_mem_of_ne_nil _ (mem_windowsOf.mp (mem_windowsOf_iff_windowFor.mpr hv)).1
      obtain ⟨c, hc, hnum, -⟩ := mem_localBits.mp hi
      obtain ⟨w, hw, hwc, -⟩ := (mem_windowCodes hW).mp hc
      exact ⟨w, hw, by rwa [hwc, hnum]⟩
    · rintro ⟨w, -, hv⟩
      rwa [windowFor_fst hv]

theorem encodeSet_windowCodes : encodeSet (windowCodes W) = W.flatMap fun w => encodeWindow (windowCodes W) w.1 := by
  rw [encodeSet_eq_wireBytes, windowsOf_windowCodes hW, wireBytes_filterMap_windowFor]

variable {w : Byte × Bytes} (hw : w ∈ W)
include hw

theorem mem_localBits_windowCodes {i : Nat} : i ∈ localBits (windowCodes W) w.1 ↔ BitSet w.2 i := by
  rw [mem_localBits]
  constructor
  · rintro ⟨c, hc, hnum, rfl⟩
    obtain ⟨v, hv, hvc, hbit⟩ := windowsHave_iff.mp ((mem_windowCodes hW).mp hc)
    obtain rfl := hW.eq_of_number hv hw (hvc.trans hnum)
    exact hbit
  · intro hbit
    have hlt := hbit.lt_length
    have hle := (hW.2 w hw).2
    obtain ⟨c, hnum, rfl⟩ := exists_code w.1 (i := i) (by unfold winMaxBytes at hle; omega)
    exact ⟨c, (mem_windowCodes hW).mpr (windowsHave_iff.mpr ⟨w, hw, hnum.symm, hbit⟩), hnum, rfl⟩

/-- A window that ends in a non-zero byte is written again as it was read (R129). -/
theorem encodeWindow_of_endsNonzero (h : EndsNonzero w.2) :
    encodeWindow (windowCodes W) w.1 = w.1 :: BitVec.ofNat 8 w.2.length :: w.2 := by
  obtain ⟨i, hbit, hi⟩ := endsNonzero_iff.mp h
  have hmem := (mem_localBits_windowCodes hW hw).mpr hbit
  have hne := List.ne_nil_of_mem hmem
  have hge := Nat.div_le_div_right (c := 8) (le_highestBit hmem)
  have hlt := ((mem_localBits_windowCodes hW hw).mp (highestBit_mem hne)).lt_length
  obtain ⟨bm, hv⟩ := exists_mem_windowsOf hne
  have hlen : bm.length = highestBit (localBits (windowCodes W) w.1) / 8 + 1 := length_of_mem_windowsOf hv
  obtain rfl : bm = w.2 := by
    refine bitmap_eq_of_bitSet_iff (hlen.trans (by omega)) fun j => ?_
    rw [bitSet_of_mem_windowsOf hv, mem_localBits_windowCodes hW hw]
  simp [encodeWindow_eq, mem_windowsOf_iff_windowFor.mp hv, wireBytes]

/-- A window that ends in a zero byte is written shorter, or not at all (R129). -/
theorem length_encodeWindow_lt (h : ¬ EndsNonzero w.2) :
    (encodeWindow (windowCodes W) w.1).length < w.2.length + 2 := by
  rw [length_encodeWindow]
  split
  · omega
  · have hbit := (mem_localBits_windowCodes hW hw).mp (highestBit_mem ‹_›)
    have hlt := hbit.lt_length
    have hne : highestBit (localBits (windowCodes W) w.1) / 8 + 1 ≠ w.2.length :=
      fun heq => h (endsNonzero_iff.mpr ⟨_, hbit, heq⟩)
    omega

end

section
variable {W : List (Byte × Bytes)} (hW : WindowsOk W)
include hW

theorem encodeSet_of_windowsMinimal (h : WindowsMinimal W) : encodeSet (windowCodes W) = wireBytes W := by
  rw [encodeSet_windowCodes hW]
  exact List.flatMap_congr fun w hw => encodeWindow_of_endsNonzero hW hw (h w hw)

theorem length_encodeSet_lt (h : ¬ WindowsMinimal W) : (encodeSet (windowCodes W)).length < (wireBytes W).length := by
  rw [encodeSet_windowCodes hW, wireBytes, List.length_flatMap, List.length_flatMap]
  refine List.sum_lt_sum _ _ (fun w hw => ?_) ?_
  · by_cases hend : EndsNonzero w.2
    · exact (congrArg List.length (encodeWindow_of_endsNonzero hW hw hend)).le
    · exact (length_encodeWindow_lt hW hw hend).le
  · rw [windowsMinimal_iff] at h
    push Not at h
    obtain ⟨w, hw, hend⟩ := h
    exact ⟨w, hw, length_encodeWindow_lt hW hw hend⟩

end

/-- Settles O48: TBMENC's windows are accepted windows with the codes of the set, and TBMENC of the codes of accepted
windows writes each of them again, without its trailing zero bytes. -/
theorem typeSetRoundTrips : Obligations.TypeSetRoundTrips := by
  refine ⟨fun s t s' ht hop => ?_, fun b S hb => ?_⟩
  · have hok := windowsOk_windowsOf s.tset
    have hres := resultString_of_exec ht rfl ((length_encodeSet_le s.tset).trans_lt (by decide))
    have hdec : commandOutcome .tbmdec s' = .ok (.typeSet (windowCodes (windowsOf s.tset))) := by
      rw [commandOutcome, hop, hres, operandSet, encodeSet_eq_wireBytes, tbmdecFn_wireBytes hok]
    obtain ⟨t', ht', hset, -, hstatus, -⟩ := exec_of_typeSet hdec
    refine ⟨t', ht', hstatus.1, fun c => Bool.eq_iff_iff.mpr ?_⟩
    rw [hset, TypeSet.test_iff, TypeSet.test_iff, mem_windowCodes hok, windowsHave_windowsOf]
  · obtain ⟨W, hW, rfl, rfl⟩ := windows_of_tbmdecFn hb
    refine ⟨W, _, hW, rfl, rfl, ⟨fun heq => ?_, encodeSet_of_windowsMinimal hW⟩, fun hmin => ?_⟩
    · by_contra hmin
      exact absurd (congrArg List.length heq) (length_encodeSet_lt hW hmin).ne
    · exact ⟨length_encodeSet_lt hW hmin, _, windowsOk_windowsOf _, windowsMinimal_windowsOf _,
        encodeSet_eq_wireBytes _⟩

end Sys2Proof.Machine

/-! Errors and their reporting (spec/60_exceptions.md): failed completion, and which command can end with which
code. -/

namespace Sys2Proof.Machine

/-! ## Failed completion -/

/-- An illegal word runs no command: it completes with IllegalCommand (R142). -/
theorem runCommand_of_illegal {v : U32} {e : IllegalWord} (h : decodeWord v = .error e) (s : State) :
    runCommand v s = .next (complete (opcodeField v) false (.error .illegalCommand) s) := by
  rcases runCommand_eq v s with ⟨i, hi, -, -⟩ | ⟨-, -, hrun⟩
  · rw [h] at hi; cases hi
  · exact hrun

/-- Settles O17: a raised error and an illegal word both go through the one failed completion. -/
theorem failedCompletionWrites : Obligations.FailedCompletionWrites := by
  refine ⟨fun i s e he => ?_, fun v s e hv => ⟨_, runCommand_of_illegal hv s, ?_⟩, rfl, rfl, rfl⟩
  · obtain ⟨t, ht, hres, hstatus, hin, hset, -⟩ := exec_of_error he
    exact ⟨t, ht, hres, hstatus, hin, hset⟩
  · exact ⟨holdsResult_complete .., holdsStatus_complete .., sameInput_complete .., sameTset_complete_error _ _ _ _⟩

/-! ## The codes a command can end with -/

/-- Every string whose length fits `IN_LEN` is the operand string of some state. -/
theorem exists_operandString {b : Bytes} (hb : b.length < 2 ^ 32) : ∃ s, operandString s = b := by
  refine ⟨(State.reset.setInBuf (Memory.ofBytes b)).setInLen (BitVec.ofNat 32 b.length), ?_⟩
  calc
    _ = (Memory.ofBytes b).readRange 0 (BitVec.ofNat 32 b.length).toNat := rfl
    _ = b := by rw [BitVec.toNat_ofNat, Nat.mod_eq_of_lt hb, Memory.readRange_ofBytes]

theorem outcomeErr_tbmdecFn (b : Bytes) : outcomeErr (tbmdecFn b) = if decodeSet b = none then 2#4 else 0#4 := by
  unfold tbmdecFn
  cases decodeSet b <;> rfl

/-- The four commands whose pseudocode raises no error (R144). -/
theorem exists_commandOutcome_ok {i : Instr} (s : State)
    (hi : i = .expandi ∨ i = .rev6 ∨ i = .tbmenc ∨ i = .tsetclr) : ∃ r, commandOutcome i s = .ok r := by
  rcases hi with rfl | rfl | rfl | rfl <;> exact ⟨_, rfl⟩

/-- A command `i` whose outcome is a function `f` of the operand string, which raises at most the error of code
`e`, ends with 0 or `e`; one string that it accepts and one that it does not show that each happens. -/
theorem codes_of_operandString {i : Instr} {f : Bytes → CommandOutcome} {e : BitVec 4}
    (hf : ∀ s, commandOutcome i s = f (operandString s))
    (hcode : ∀ b, outcomeErr (f b) = 0#4 ∨ outcomeErr (f b) = e) {good bad : Bytes}
    (hgood : outcomeErr (f good) = 0#4) (hbad : outcomeErr (f bad) = e)
    (hgoodLen : good.length < 2 ^ 32) (hbadLen : bad.length < 2 ^ 32) :
    (∀ s t, exec i s = .next t → statusErr t.status = 0#4 ∨ statusErr t.status = e) ∧
    (∃ s t, exec i s = .next t ∧ statusErr t.status = 0#4) ∧
    (∃ s t, exec i s = .next t ∧ statusErr t.status = e) := by
  have herr {s t} (h : exec i s = .next t) : statusErr t.status = outcomeErr (f (operandString s)) := by
    rw [statusErr_of_exec h, hf]
  have hends {b : Bytes} (hb : b.length < 2 ^ 32) :
      ∃ s t, exec i s = .next t ∧ statusErr t.status = outcomeErr (f b) := by
    obtain ⟨s, rfl⟩ := exists_operandString hb
    exact ⟨s, _, exec_eq_complete i s, herr (exec_eq_complete i s)⟩
  exact ⟨fun s t h => herr h ▸ hcode _, hgood ▸ hends hgoodLen, hbad ▸ hends hbadLen⟩

/-- Settles O18: the code is that of the pseudocode's outcome. The empty operand is no literal, `::` and `0.0.0.0`
are; it is a windowed bitmap, and a lone byte is none. -/
theorem errorCodesByCommand : Obligations.ErrorCodesByCommand := by
  refine ⟨?_, fun i hi s => ?_, ?_, fun v s e hv => ⟨_, runCommand_of_illegal hv s, ?_⟩⟩
  · rintro i (rfl | rfl | rfl)
    · exact codes_of_operandString (f := expandFn) (fun _ => rfl)
        (fun b => outcomeErr_expandFn b ▸ (ite_eq_or_eq ..).symm) (good := ascii "::") (bad := [])
        (by decide +kernel) rfl (by decide) (by decide)
    · exact codes_of_operandString (f := contractFn) (fun _ => rfl)
        (fun b => outcomeErr_contractFn b ▸ (ite_eq_or_eq ..).symm) (good := ascii "::") (bad := [])
        (by decide +kernel) rfl (by decide) (by decide)
    · exact codes_of_operandString (f := rev4Fn) (fun _ => rfl)
        (fun b => outcomeErr_rev4Fn b ▸ (ite_eq_or_eq ..).symm) (good := ascii "0.0.0.0") (bad := [])
        (by decide +kernel) rfl (by decide) (by decide)
  · obtain ⟨r, hr⟩ := exists_commandOutcome_ok s hi
    have ht := exec_eq_complete i s
    exact ⟨_, ht, by rw [statusErr_of_exec ht, hr, outcomeErr]⟩
  · exact codes_of_operandString (f := tbmdecFn) (fun _ => rfl)
      (fun b => outcomeErr_tbmdecFn b ▸ (ite_eq_or_eq ..).symm) (good := []) (bad := [0x00#8])
      rfl rfl (by decide) (by decide)
  · rw [complete_status, statusErr_packStatus, outcomeErr, errCode]

end Sys2Proof.Machine

/-! The commands right after reset (spec/70_reset_and_hazards.md R161): the operand string and the type set are
empty. -/

namespace Sys2Proof.Machine

/-! ## The empty operand -/

theorem operandString_reset : operandString State.reset = [] := rfl

theorem parseIPv6_nil : parseIPv6 [] = none := by decide

theorem parseIPv4_nil : parseIPv4 [] = none := by decide

/-- The empty string is one empty token, which EXPANDI pads to four digits (R92). -/
theorem expandIncomplete_nil : expandIncomplete [] = ascii "0000" := by decide

theorem nibbleName_four_zeros : nibbleName (ascii "0000") = ascii "0.0.0.0.ip6.arpa." := by decide

/-- The empty string is the wire form of no window (R126). -/
theorem tbmdecFn_nil : tbmdecFn [] = .ok (.typeSet []) := rfl

/-! ## The commands -/

/-- The three commands that read a literal raise an error on the empty string. -/
theorem commandOutcome_reset_of_literal {i : Instr} (hi : i = .expand ∨ i = .contract ∨ i = .rev4) :
    commandOutcome i State.reset = .error .invalidAddress := by
  rcases hi with rfl | rfl | rfl <;> rw [commandOutcome, operandString_reset]
  · exact expandFn_of_none parseIPv6_nil
  · exact contractFn_of_none parseIPv6_nil
  · exact rev4Fn_of_none parseIPv4_nil

/-- Settles O3: the empty operand is no literal, one empty token to EXPANDI, and no window to TBMDEC; the empty set
has no window to encode. -/
theorem commandsRightAfterReset : Obligations.CommandsRightAfterReset := by
  refine ⟨fun i hi => ?literals, ?expandi, ?rev6, ?tbmenc, ?tbmdec⟩
  case literals =>
    obtain ⟨t, ht, hres, hstatus, -⟩ := exec_of_error (commandOutcome_reset_of_literal hi)
    exact ⟨t, ht, hstatus, hres⟩
  case expandi =>
    obtain ⟨t, ht, hres, hstatus, -⟩ := exec_of_bytes (i := .expandi) (s := State.reset) rfl
    rw [operandString_reset, expandIncomplete_nil] at hres
    exact ⟨t, ht, hstatus, hres⟩
  case rev6 =>
    obtain ⟨t, ht, hres, hstatus, -⟩ := exec_rev6_of_none (s := State.reset) parseIPv6_nil
    rw [operandString_reset, expandIncomplete_nil, nibbleName_four_zeros] at hres
    exact ⟨t, ht, hstatus, hres⟩
  case tbmenc =>
    have henc : commandOutcome .tbmenc State.reset = .ok (.bytes (encodeSet [])) := rfl
    rw [encodeSet_nil] at henc
    obtain ⟨t, ht, hres, hstatus, -⟩ := exec_of_bytes henc
    exact ⟨t, ht, hstatus, hres⟩
  case tbmdec =>
    obtain ⟨t, ht, hset, hres, hstatus, -⟩ := exec_of_typeSet (i := .tbmdec) (s := State.reset) tbmdecFn_nil
    exact ⟨t, ht, hstatus, hres, fun c => by rw [hset]; rfl⟩

end Sys2Proof.Machine

/-! Command words (spec/30_encoding.md): decoding by number, and what a write of CMD does; and the
fields of STATUS (spec/10_state.md R27). -/

namespace Sys2Proof.Machine

theorem toOption_decodeWord_eq_some {v : U32} {i : Instr} : (decodeWord v).toOption = some i ↔ encode i = v := by
  rw [eq_comm (a := encode i), ← decodeWord_eq_ok]
  cases decodeWord v <;> simp [Except.toOption]

/-- An illegal word has the number of no command's word. -/
theorem toNat_ne_encode {v : U32} {e : IllegalWord} (h : decodeWord v = .error e) (i : Instr) :
    v.toNat ≠ (encode i).toNat := by
  intro hn
  rw [decodeWord_eq_ok.mpr (BitVec.eq_of_toNat_eq hn)] at h
  cases h

/-- Settles O5: a legal word is the encoding of its command, and an illegal one has none of the eight numbers. -/
theorem decodingByNumberAndEncoding : Obligations.DecodingByNumberAndEncoding := by
  refine fun v => ⟨?_, fun i => toOption_decodeWord_eq_some⟩
  cases h : decodeWord v with
  | ok i =>
    obtain rfl := decodeWord_eq_ok.mp h
    cases i <;> rfl
  | error e =>
    have hne := toNat_ne_encode h
    exact ((if_neg (hne .expand)).trans <| (if_neg (hne .expandi)).trans <| (if_neg (hne .contract)).trans <|
      (if_neg (hne .rev4)).trans <| (if_neg (hne .rev6)).trans <| (if_neg (hne .tbmenc)).trans <|
      (if_neg (hne .tbmdec)).trans <| if_neg (hne .tsetclr)).symm

/-- Settles O4: each listed word is the encoding of its command. -/
theorem commandWordsDecodeAsListed : Obligations.CommandWordsDecodeAsListed :=
  ⟨decodeWord_eq_ok.mpr rfl, decodeWord_eq_ok.mpr rfl, decodeWord_eq_ok.mpr rfl, decodeWord_eq_ok.mpr rfl,
    decodeWord_eq_ok.mpr rfl, decodeWord_eq_ok.mpr rfl, decodeWord_eq_ok.mpr rfl, decodeWord_eq_ok.mpr rfl⟩

theorem runCommand_of_ok {v : U32} {i : Instr} (h : decodeWord v = .ok i) (s : State) :
    runCommand v s = exec i s := by
  simp only [runCommand, h]

/-- Settles O6: a write of CMD is `runCommand`, which is `exec` of a legal word and one failed completion of an
illegal one. -/
theorem cmdWriteRunsDecodedCommand : Obligations.CmdWriteRunsDecodedCommand := by
  refine ⟨fun s => rfl, fun cfg s rest => ⟨fun v i hp hv => ?_, fun v e hp hv => ?_, fun hp => stepWith_cons hp⟩⟩
  · rw [stepWith_writeCmd hp, runCommand_of_ok hv]
  · rw [stepWith_writeCmd hp, runCommand_of_illegal hv]
    rfl

/-! ## The fields of STATUS -/

theorem toNat_append_eq_add {m n : Nat} (x : BitVec m) (y : BitVec n) :
    (x ++ y).toNat = 2 ^ n * x.toNat + y.toNat := by
  rw [BitVec.toNat_append, ← Nat.shiftLeft_add_eq_or_of_lt y.isLt, Nat.shiftLeft_eq, Nat.mul_comm]

theorem toNat_packStatus (err : BitVec 4) (fb : Bool) (op : Byte) :
    (packStatus err fb op).toNat = 256 * op.toNat + (if fb then 16 else 0) + err.toNat := by
  have hpack : (packStatus err fb op).toNat = (0#16 ++ op ++ 0#3 ++ BitVec.ofBool fb ++ err).toNat := rfl
  rw [hpack]
  simp only [toNat_append_eq_add, BitVec.toNat_ofBool, BitVec.toNat_ofNat]
  cases fb <;> simp <;> omega

/-- Settles O1: a packed value is its fields one above the other, and each reads back. -/
theorem statusValueFromFields : Obligations.StatusValueFromFields := fun err fb op =>
  ⟨toNat_packStatus err fb op, statusErr_packStatus .., statusFb_packStatus .., statusOp_packStatus ..,
    statusReservedLow_packStatus .., statusReservedHigh_packStatus ..⟩

end Sys2Proof.Machine

/-! The host port (spec/20_memory.md): what each transaction does, that one in range always completes, and
ranges of a buffer. -/

namespace Sys2Proof.Machine

/-! ## Stores and reads -/

/-- Settles O8: the store is one write of IN. -/
theorem wrinStoresOneByte : Obligations.WrinStoresOneByte := by
  intro cfg s i b rest hp hi
  exact ⟨_, (stepWith_cons hp).trans (if_pos hi), fun j => Memory.read_write s.inBuf i j b, rfl,
    ⟨fun _ => rfl, rfl⟩, fun _ => rfl, rfl, rfl, rfl⟩

/-- Settles O9: the store is one write of TSET. -/
theorem wrtsetStoresOneCell : Obligations.WrtsetStoresOneCell := by
  intro cfg s c v rest hp
  exact ⟨_, stepWith_cons hp, fun d => TypeSet.test_write s.tset c d v, ⟨fun _ => rfl, rfl⟩,
    ⟨fun _ => rfl, rfl⟩, rfl, rfl, rfl⟩

/-- Settles O10: a step performs its first transaction, and each of these only sets the reply. -/
theorem readsAndIgnoredWritesChangeNothing : Obligations.ReadsAndIgnoredWritesChangeNothing := fun _ _ _ =>
  ⟨fun _ hp hi => (stepWith_cons hp).trans (if_pos hi), fun _ hp hi => (stepWith_cons hp).trans (if_pos hi),
    fun _ hp => stepWith_cons hp, fun hp => stepWith_cons hp, fun hp => stepWith_cons hp,
    fun hp => stepWith_cons hp, fun hp => stepWith_cons hp, fun _ hp => stepWith_cons hp,
    fun _ hp => stepWith_cons hp⟩

/-! ## Transactions in range -/

theorem exists_readCsr_of_lt_four {n : Nat} (h : n < 4) (s : State) : ∃ v, readCsr s n = some v := by
  interval_cases n <;> exact ⟨_, rfl⟩

theorem runCommand_next (v : U32) (s : State) : ∃ t, runCommand v s = .next t ∧ t.pending = s.pending := by
  rcases runCommand_eq v s with ⟨i, -, -, hrun⟩ | ⟨e, -, hrun⟩
  · exact ⟨_, hrun, complete_pending ..⟩
  · exact ⟨_, hrun, complete_pending ..⟩

theorem writeCsr_next_of_lt_four {n : Nat} (h : n < 4) (cfg : Config) (v : U32) (s : State) :
    ∃ t, writeCsr cfg n v s = .next t ∧ t.pending = s.pending := by
  interval_cases n
  · exact runCommand_next v s
  · exact ⟨_, rfl, rfl⟩
  · obtain ⟨w, hw⟩ := writeInLen_eq_setInLen cfg.inMax v s
    exact ⟨_, rfl, by rw [hw, State.setInLen_pending]⟩
  · exact ⟨_, rfl, rfl⟩

/-- A transaction in the ranges of R42 ends in a next state, whatever the state, and leaves what is pending. -/
theorem transact_next_of_inRange {cfg : Config} {x : HostTxn} (h : x.inRange cfg = true) (s : State) :
    ∃ t, transact cfg x s = .next t ∧ t.pending = s.pending := by
  cases x with
  | wrin i b => exact ⟨_, if_pos (of_decide_eq_true h), rfl⟩
  | rdin i => exact ⟨_, if_pos (of_decide_eq_true h), rfl⟩
  | rdout i => exact ⟨_, if_pos (of_decide_eq_true h), rfl⟩
  | wrout i b => cases h
  | wrtset c v => exact ⟨_, rfl, rfl⟩
  | rdtset c => exact ⟨_, rfl, rfl⟩
  | wrcsr n v => exact writeCsr_next_of_lt_four (of_decide_eq_true h) cfg v _
  | rdcsr n =>
    obtain ⟨v, hv⟩ := exists_readCsr_of_lt_four (of_decide_eq_true h) s
    exact ⟨s.setReply (.word v), by simp only [transact, hv], rfl⟩
  | reset => exact ⟨_, rfl, rfl⟩

/-- Settles O13: a step performs its first transaction, and one in range completes. -/
theorem inRangeTransactionsAlwaysComplete : Obligations.InRangeTransactionsAlwaysComplete := by
  refine fun cfg s => ⟨fun x rest hp hx => ?_, fun hp => ?_⟩
  · rw [stepWith_cons hp]
    exact transact_next_of_inRange hx _
  · simp only [stepWith, stepOnce, hp]

/-! ## What writes each space -/

/-- A transaction keeps IN, OUT, TSET and STATUS, or it is one of the four that write them. -/
theorem TxnEffect.writers {cfg : Config} {s t : State} {x : HostTxn} (h : TxnEffect cfg s t x) :
    (t.inBuf = s.inBuf ∧ t.outBuf = s.outBuf ∧ t.tset = s.tset ∧ t.status = s.status) ∨ x = .reset ∨
      (∃ i b, x = .wrin i b ∧ t = (s.setInBuf (s.inBuf.write i b)).setReply .nothing) ∨
      (∃ c v, x = .wrtset c v ∧ t = (s.setTset (s.tset.write c v)).setReply .nothing) ∨
      (∃ v, x = .wrcsr 0 v ∧ runCommand v (s.setReply .nothing) = .next t) := by
  cases x with
  | rdin i => obtain ⟨-, rfl⟩ := h; exact .inl ⟨rfl, rfl, rfl, rfl⟩
  | rdout i => obtain ⟨-, rfl⟩ := h; exact .inl ⟨rfl, rfl, rfl, rfl⟩
  | rdtset c => obtain rfl := h; exact .inl ⟨rfl, rfl, rfl, rfl⟩
  | rdcsr n => obtain ⟨v, -, rfl⟩ := h; exact .inl ⟨rfl, rfl, rfl, rfl⟩
  | wrout i b => exact h.elim
  | reset => exact .inr (.inl rfl)
  | wrin i b => exact .inr (.inr (.inl ⟨i, b, rfl, h.2⟩))
  | wrtset c v => exact .inr (.inr (.inr (.inl ⟨c, v, rfl, h⟩)))
  | wrcsr n v =>
    rcases h with ⟨rfl, hrun⟩ | ⟨-, rfl⟩ | ⟨-, rfl⟩
    · exact .inr (.inr (.inr (.inr ⟨v, rfl, hrun⟩)))
    · exact .inl ⟨rfl, rfl, rfl, rfl⟩
    · obtain ⟨w, hw⟩ := writeInLen_eq_setInLen cfg.inMax v (s.setReply .nothing)
      exact .inl (hw ▸ ⟨rfl, rfl, rfl, rfl⟩)

/-- Every command but TBMDEC and TSETCLR keeps TSET. -/
theorem outcomeSet_commandOutcome {i : Instr} (h : i ≠ .tbmdec ∧ i ≠ .tsetclr) (s : State) (S : TypeSet) :
    outcomeSet S (commandOutcome i s) = S := by
  have hi : i = .expand ∨ i = .expandi ∨ i = .contract ∨ i = .rev4 ∨ i = .rev6 ∨ i = .tbmenc := by
    revert h; cases i <;> decide
  rcases commandOutcome_bytes_or_error s hi with ⟨r, ho⟩ | ⟨e, ho⟩
  · rw [ho]; rfl
  · rw [ho]; rfl

/-- A command word that changes TSET is that of TBMDEC or of TSETCLR. -/
theorem word_of_runCommand_tset_ne {v : U32} {s t : State} (h : runCommand v s = .next t) (hne : t.tset ≠ s.tset) :
    v = 0x00000009#32 ∨ v = 0x0000000A#32 := by
  rcases runCommand_eq v s with ⟨i, -, rfl, hrun⟩ | ⟨e, -, hrun⟩
  · obtain rfl := Host.Outcome.next.inj (hrun.symm.trans h)
    rw [complete_tset] at hne
    by_contra hv
    rw [not_or] at hv
    exact hne (outcomeSet_commandOutcome
      ⟨fun hi => hv.1 (congrArg encode hi), fun hi => hv.2 (congrArg encode hi)⟩ s s.tset)
  · obtain rfl := Host.Outcome.next.inj (hrun.symm.trans h)
    exact absurd (complete_tset ..) hne

/-- Settles O14: by the writers of each space. A command is one completion, which keeps IN. -/
theorem onlyTheseTransactionsWriteEachSpace : Obligations.OnlyTheseTransactionsWriteEachSpace := by
  intro cfg s t h
  rcases step_cases h with ⟨-, rfl⟩ | ⟨x, rest, hp, heff⟩
  · exact ⟨fun _ hne => absurd rfl hne, fun _ hne => absurd rfl hne, fun _ hne => absurd rfl hne,
      fun hne => absurd rfl hne⟩
  rcases heff.writers with ⟨hin, hout, htset, hstatus⟩ | rfl | ⟨i, b, rfl, rfl⟩ | ⟨c, v, rfl, rfl⟩ | ⟨v, rfl, hrun⟩
  · exact ⟨fun a hne => absurd (congrArg (·.read a) hin) hne, fun a hne => absurd (congrArg (·.read a) hout) hne,
      fun c hne => absurd (congrArg (·.test c) htset) hne, fun hne => absurd hstatus hne⟩
  · exact ⟨fun _ _ => ⟨rest, .inl hp⟩, fun _ _ => ⟨rest, .inl hp⟩, fun _ _ => ⟨rest, .inl hp⟩,
      fun _ => ⟨rest, .inl hp⟩⟩
  · refine ⟨fun a hne => ?_, fun _ hne => absurd rfl hne, fun _ hne => absurd rfl hne, fun hne => absurd rfl hne⟩
    obtain rfl : a = i := by
      by_contra ha
      exact hne ((Memory.read_write s.inBuf i a b).trans (if_neg ha))
    exact ⟨rest, .inr ⟨b, hp⟩⟩
  · refine ⟨fun _ hne => absurd rfl hne, fun _ hne => absurd rfl hne, fun d hne => ?_, fun hne => absurd rfl hne⟩
    obtain rfl : d = c := by
      by_contra hd
      exact hne ((TypeSet.test_write s.tset c d v).trans (if_neg hd))
    exact ⟨rest, .inr (.inl ⟨v, hp⟩)⟩
  · refine ⟨fun a hne => ?_, fun _ _ => ⟨rest, .inr ⟨v, hp⟩⟩, fun c hne => ?_, fun _ => ⟨rest, .inr ⟨v, hp⟩⟩⟩
    · obtain ⟨op, fb, o, rfl⟩ := exists_complete_of_runCommand hrun
      rw [complete_inBuf] at hne
      exact absurd rfl hne
    · rcases word_of_runCommand_tset_ne hrun (fun htset => hne (by rw [htset]; rfl)) with rfl | rfl
      · exact ⟨rest, .inr (.inr (.inl hp))⟩
      · exact ⟨rest, .inr (.inr (.inr hp))⟩

/-! ## Ranges of a buffer -/

theorem Memory.readRange_writeRange (m : Memory) (a : Nat) (v : Bytes) :
    (m.writeRange a v).readRange a v.length = v := by
  apply List.ext_getElem?
  intro k
  rw [Memory.getElem?_readRange, Memory.read_writeRange]
  by_cases hk : k < v.length
  · simp [hk, List.getD]
  · simp [hk]

theorem Memory.read_writeRange_outside (m : Memory) {a j : Nat} {v : Bytes} (h : j < a ∨ a + v.length ≤ j) :
    (m.writeRange a v).read j = m.read j := by
  rw [Memory.read_writeRange, if_neg (by omega)]

/-- Settles O15: by what a read gives after a range is written. -/
theorem rangeWriteThenRangeRead : Obligations.RangeWriteThenRangeRead := fun m a v =>
  ⟨Memory.readRange_writeRange m a v, fun _ => Memory.read_writeRange_outside m, fun h => Memory.wf_writeRange v h a⟩

end Sys2Proof.Machine

/-! The address engine (spec/40_address_ops.md): what the parser reads, EXPANDI, and the lengths of the results. -/

namespace Sys2Proof.Machine

/-! ## Literals -/

/-- Settles O26: the parser's answer is the literal's text, and each of the two forms of a literal is read. -/
theorem parserReadsExactlyTheLiterals : Obligations.ParserReadsExactlyTheLiterals := by
  refine fun s h => ⟨literalText_of_parseIPv6, ?_⟩
  rintro (⟨hs, hg, hn⟩ | ⟨l, r, L, R, rfl, hl, hr, hn, rfl⟩)
  · exact parseIPv6_whole hs hg hn
  · exact parseIPv6_sides hl hr hn

/-! ## The 16-byte form -/

theorem addressBytes_cons (v : U16) (h : List U16) :
    addressBytes (v :: h) = v.extractLsb' 8 8 :: v.extractLsb' 0 8 :: addressBytes h := rfl

theorem length_addressBytes (h : List U16) : (addressBytes h).length = 2 * h.length := by
  induction h with
  | nil => rfl
  | cons v h ih =>
    rw [addressBytes_cons]
    simp only [List.length_cons, ih]
    omega

/-- A hextet is its high byte and its low byte (R45). -/
theorem toNat_eq_bytes (v : U16) :
    v.toNat = 256 * (v.extractLsb' 8 8).toNat + (v.extractLsb' 0 8).toNat := by
  have := v.isLt
  simp only [BitVec.extractLsb'_toNat, Nat.shiftRight_eq_div_pow]
  omega

theorem getElem?_addressBytes {h : List U16} {k : Nat} {v : U16} (hk : h[k]? = some v) :
    (addressBytes h)[2 * k]? = some (v.extractLsb' 8 8) ∧
      (addressBytes h)[2 * k + 1]? = some (v.extractLsb' 0 8) := by
  induction h generalizing k with
  | nil => cases hk
  | cons u h ih =>
    rw [addressBytes_cons]
    cases k with
    | zero =>
      obtain rfl : u = v := Option.some.inj hk
      exact ⟨rfl, rfl⟩
    | succ k => exact ih hk

/-- Settles O35: each hextet takes two bytes, high and low, and is made of them. -/
theorem hextetsAreBigEndianBytes : Obligations.HextetsAreBigEndianBytes := by
  refine fun h hl => ⟨by rw [length_addressBytes, hl], fun k v hk => ?_⟩
  obtain ⟨hhi, hlo⟩ := getElem?_addressBytes hk
  exact ⟨_, _, hhi, hlo, toNat_eq_bytes v⟩

/-! ## EXPANDI -/

theorem expandIncomplete_join {T : List Bytes} (hT : T ≠ []) (h : ∀ u ∈ T, colon ∉ u) :
    expandIncomplete (join [colon] T) =
      join [colon] (T.map (fun u => List.replicate (4 - u.length) 0x30#8 ++ u)) := by
  have hpad : lpad4 = fun u => List.replicate (4 - u.length) 0x30#8 ++ u := funext lpad4_eq
  rw [expandIncomplete, split_join hT h, hpad]

/-- Settles O30: the tokens are the pieces between the colons, which cutting gives back. -/
theorem expandiPadsEachToken : Obligations.ExpandiPadsEachToken := by
  refine ⟨fun s => ⟨split colon (operandString s), split_ne_nil _ _, fun _ => not_mem_of_mem_split,
    (join_split _ _).symm⟩, fun s T hT h hop => ?_⟩
  obtain ⟨t, ht, hres, hrest⟩ := exec_of_bytes (i := .expandi) (s := s) rfl
  have hlen := length_expandIncomplete_le (operandString s)
  have htext : expandIncomplete (operandString s) = _ := hop ▸ expandIncomplete_join hT h
  rw [htext] at hres hlen
  exact ⟨t, ht, hres, hlen, hrest⟩

/-! ## The lengths of the results -/

theorem length_nibbleName_expandIncomplete_le (s : Bytes) :
    (nibbleName (expandIncomplete s)).length ≤ 8 * s.length + 17 := by
  have hdigits := (length_filter_expandIncomplete s).2
  rw [length_nibbleName]
  omega

/-- An operand of colons alone is empty tokens, each padded to four bytes (R110). -/
theorem length_nibbleName_expandIncomplete_colons (L : Nat) :
    (nibbleName (expandIncomplete (List.replicate L colon))).length = 8 * L + 17 := by
  have htokens : (split colon (List.replicate L colon)).length = L + 1 := by
    rw [length_split, List.count_replicate_self]
  have hge := (sum_map_length_lpad4 (split colon (List.replicate L colon))).2
  have hle := (length_filter_expandIncomplete (List.replicate L colon)).2
  rw [filter_expandIncomplete] at hle
  rw [length_nibbleName, filter_expandIncomplete]
  rw [List.length_flatten] at hle ⊢
  rw [List.length_replicate] at hle
  omega

/-- Colons alone are no literal, except two: one is an empty group, and three or more hold two `::` (R85). -/
theorem parseIPv6_colons {L : Nat} (h : L ≠ 2) : parseIPv6 (List.replicate L colon) = none := by
  match L, h with
  | 0, _ => decide
  | 1, _ => decide
  | n + 3, _ => simp [parseIPv6, doubleColons, List.replicate_succ]

theorem exists_of_expandFn_ok {s r : Bytes} (h : expandFn s = .ok (.bytes r)) :
    ∃ G, parseIPv6 s = some G ∧ r = renderFull G := by
  cases hp : parseIPv6 s with
  | none => rw [expandFn_of_none hp] at h; cases h
  | some G => rw [expandFn_of_some hp] at h; cases h; exact ⟨G, rfl, rfl⟩

theorem exists_of_contractFn_ok {s r : Bytes} (h : contractFn s = .ok (.bytes r)) :
    ∃ G, parseIPv6 s = some G ∧ r = renderShort G := by
  cases hp : parseIPv6 s with
  | none => rw [contractFn_of_none hp] at h; cases h
  | some G => rw [contractFn_of_some hp] at h; cases h; exact ⟨G, rfl, rfl⟩

/-- REV4's result comes from four octet tokens (R100). -/
theorem exists_of_rev4Fn_ok {s r : Bytes} (h : rev4Fn s = .ok (.bytes r)) :
    ∃ a b c d, isDecOctet a = true ∧ isDecOctet b = true ∧ isDecOctet c = true ∧ isDecOctet d = true ∧
      r = join [dot] [d, c, b, a] ++ inAddrArpa := by
  cases hp : parseIPv4 s with
  | none => rw [rev4Fn_of_none hp] at h; cases h
  | some q =>
    obtain ⟨a, b, c, d, ha, hb, hc, hd, rfl, -⟩ := parseIPv4_eq_some.mp hp
    rw [rev4Fn_octets ha hb hc hd] at h
    cases h
    exact ⟨a, b, c, d, ha, hb, hc, hd, rfl⟩

theorem length_expandFn {s r : Bytes} (h : expandFn s = .ok (.bytes r)) : r.length = 39 := by
  obtain ⟨G, hp, rfl⟩ := exists_of_expandFn_ok h
  exact length_renderFull_of_parse hp

theorem length_expandiFn_le {s r : Bytes} (h : expandiFn s = .ok (.bytes r)) : r.length ≤ 5 * s.length + 4 := by
  cases h
  exact length_expandIncomplete_le s

theorem length_contractFn_le {s r : Bytes} (h : contractFn s = .ok (.bytes r)) : r.length ≤ 39 := by
  obtain ⟨G, hp, rfl⟩ := exists_of_contractFn_ok h
  exact (length_renderShort (length_of_parseIPv6 hp)).2

theorem length_rev4Fn_le {s r : Bytes} (h : rev4Fn s = .ok (.bytes r)) : r.length ≤ 29 := by
  obtain ⟨a, b, c, d, ha, hb, hc, hd, rfl⟩ := exists_of_rev4Fn_ok h
  exact (length_rev4_name ha hb hc hd).2

/-- Settles O40: a reverse name has two bytes a nibble, less one, and the suffix. -/
theorem addressResultLengths : Obligations.AddressResultLengths :=
  ⟨fun s hp => ⟨_, rev6Fn_of_none hp, length_nibbleName_expandIncomplete_le s⟩,
    fun _ _ hp => ⟨_, rev6Fn_of_some hp, length_nibbleName_renderFull (length_of_parseIPv6 hp)⟩,
    fun L hL => ⟨_, rev6Fn_of_none (parseIPv6_colons hL), length_nibbleName_expandIncomplete_colons L⟩,
    fun _ _ => length_expandFn, fun _ _ => length_expandiFn_le, fun _ _ => length_contractFn_le,
    fun _ _ => length_rev4Fn_le⟩

end Sys2Proof.Machine

/-! The bitmap engine (spec/41_type_bitmap_ops.md): TBMDEC's two ends, the frame of the commands that yield a type
set, and the wire form of one code. -/

namespace Sys2Proof.Machine

/-! ## TBMDEC and TSETCLR -/

theorem tbmdecFn_of_no_windows {b : Bytes} (h : ¬ ∃ W, WindowsOk W ∧ b = wireBytes W) :
    tbmdecFn b = .error .malformedWireData := by
  unfold tbmdecFn
  split
  · obtain ⟨W, hW, hb, -⟩ := windows_of_decodeSet ‹_›
    exact absurd ⟨W, hW, hb⟩ h
  · rfl

/-- Settles O47: the operands TBMDEC accepts are exactly the wire forms of accepted windows. -/
theorem tbmdecReplacesTheSet : Obligations.TbmdecReplacesTheSet := by
  refine ⟨fun s W hW hop => ?accepted, fun s hno => ?malformed, by decide +kernel, rfl, by decide +kernel,
    by decide +kernel⟩
  case accepted =>
    obtain ⟨t, ht, hset, hrest⟩ := exec_of_typeSet (i := .tbmdec) (s := s) (hop ▸ tbmdecFn_wireBytes hW)
    exact ⟨t, ht, fun c => by rw [hset, TypeSet.test_iff, mem_windowCodes hW], hset ▸ wf_windowCodes hW, hrest⟩
  case malformed =>
    obtain ⟨t, ht, hres, hstatus, hin, hset, hhost⟩ := exec_of_error (i := .tbmdec) (tbmdecFn_of_no_windows hno)
    exact ⟨t, ht, hset, hres, hstatus, hin, hhost⟩

/-- TBMDEC and TSETCLR have no result string, whatever their outcome. -/
theorem outcomeBytes_of_typeSet_command {i : Instr} (hi : i = .tbmdec ∨ i = .tsetclr) (s : State) :
    outcomeBytes (commandOutcome i s) = [] := by
  rcases hi with rfl | rfl
  · rw [commandOutcome, tbmdecFn]
    split <;> rfl
  · rfl

/-- Settles O43: both commands complete with an empty result string. -/
theorem typeSetCommandsFrame : Obligations.TypeSetCommandsFrame := by
  intro i s t hi ht
  rw [exec_next_iff] at ht
  subst ht
  simp [outcomeBytes_of_typeSet_command hi]

/-! ## The wire form of one code -/

theorem localBits_singleton (c : U16) (w : Byte) :
    localBits [c] w = if windowOf c = w then [(localBit c).toNat] else [] := by
  unfold localBits
  split <;> simp_all

theorem modify_replicate_append_singleton {α : Type} (f : α → α) (a b : α) (n : Nat) :
    (List.replicate n a ++ [b]).modify n f = List.replicate n a ++ [f b] := by
  induction n with
  | zero => rfl
  | succ n ih => rw [List.replicate_succ, List.cons_append, List.modify_succ_cons, ih, List.cons_append]

/-- A bitmap of just enough bytes with one bit set: zero bytes, and the mask of the bit in the last (R44). -/
theorem bitmapBytes_singleton (i : Nat) :
    bitmapBytes (i / 8 + 1) [i] = List.replicate (i / 8) 0x00#8 ++ [bitMask i] := by
  rw [bitmapBytes, List.foldl_cons, List.foldl_nil, List.replicate_succ', modify_replicate_append_singleton,
    BitVec.zero_or]

/-- The one window TBMENC writes for one code (R44, R124). -/
theorem windowsOf_singleton (c : U16) :
    windowsOf [c] =
      [(windowOf c, List.replicate ((localBit c).toNat / 8) 0x00#8 ++ [bitMask (localBit c).toNat])] := by
  refine windows_ext (windowsOk_windowsOf _).1 (List.pairwise_singleton _ _) fun v => ?_
  have hhigh : highestBit [(localBit c).toNat] = (localBit c).toNat := Nat.zero_max _
  rw [mem_windowsOf, List.mem_singleton, localBits_singleton, Prod.ext_iff]
  by_cases hv : windowOf c = v.1
  · rw [if_pos hv, hhigh, bitmapBytes_singleton]
    simp [hv]
  · simp [hv, Ne.symm hv]

theorem encodeSet_singleton (c : U16) :
    encodeSet [c] = BitVec.ofNat 8 (c.toNat / 256) :: BitVec.ofNat 8 (c.toNat % 256 / 8 + 1) ::
      (List.replicate (c.toNat % 256 / 8) 0x00#8 ++ [0x80#8 >>> (c.toNat % 8)]) := by
  have hmask : bitMask (c.toNat % 256) = 0x80#8 >>> (c.toNat % 8) := by
    rw [bitMask, Nat.mod_mod_of_dvd _ (by decide)]
  have hwindow : windowOf c = BitVec.ofNat 8 (c.toNat / 256) := by
    rw [← toNat_windowOf, BitVec.ofNat_toNat, BitVec.setWidth_eq]
  rw [encodeSet_eq_wireBytes, windowsOf_singleton, toNat_localBit, hmask, hwindow]
  simp [wireBytes]

/-- Settles O44: TBMENC reads the set by its members, so a set of one code is the list of that code. -/
theorem wireFormOfOneCode : Obligations.WireFormOfOneCode := by
  intro s c hc
  obtain ⟨t, ht, hres, -⟩ := exec_of_bytes (i := .tbmenc) (s := s) rfl
  have hmem : ∀ d, d ∈ s.tset ↔ d ∈ [c] := fun d => by
    rw [← TypeSet.test_iff, hc d, decide_eq_true_eq, List.mem_singleton]
  rw [operandSet, encodeSet_congr hmem, encodeSet_singleton] at hres
  exact ⟨t, ht, hres⟩

end Sys2Proof.Machine

/-! Completion (spec/60_exceptions.md): successful completion, a failed command repeated, and systems of
several blocks. -/

namespace Sys2Proof.Machine

theorem commandFallback_eq (i : Instr) (s : State) :
    commandFallback i s = (decide (i = .rev6) && (parseIPv6 (operandString s)).isNone) := by
  cases i <;> rfl

/-- Settles O16: the two ways a command completes without an error. Only REV6 has a fallback bit, and it yields a
byte string. -/
theorem successfulCompletionWrites : Obligations.SuccessfulCompletionWrites := by
  refine fun i s => ⟨fun r ho => ?_, fun S ho => ?_⟩
  · obtain ⟨t, ht, hres, hstatus, hin, hset, -⟩ := exec_of_bytes ho
    exact ⟨t, ht, hres, commandFallback_eq i s ▸ hstatus, hin, hset⟩
  · obtain ⟨t, ht, hset, hres, hstatus, hin, -⟩ := exec_of_typeSet ho
    have hfb : commandFallback i s = false := by
      cases i with
      | rev6 => cases ho
      | expand | expandi | contract | rev4 | tbmenc | tbmdec | tsetclr => rfl
    exact ⟨t, ht, fun c => by rw [hset, TypeSet.test], hres, hfb ▸ hstatus, hin⟩

/-- A failed completion after a failed one changes nothing. -/
theorem complete_error_complete_error (op : Byte) (fb fb' : Bool) (e : ErrorKind) (s : State) :
    complete op fb (.error e) (complete op fb' (.error e) s) = complete op fb' (.error e) s := rfl

theorem commandOutcome_complete_error (i : Instr) (op : Byte) (fb : Bool) (e : ErrorKind) (s : State) :
    commandOutcome i (complete op fb (.error e) s) = commandOutcome i s :=
  (commandOutcome_congr (operandString_congr (sameInput_complete ..)).symm
    (sameTset_complete_error _ _ _ _) i).symm

/-- Settles O21: a failed command keeps its operands, so it raises the same error again. -/
theorem failedCommandRepeatsItself : Obligations.FailedCommandRepeatsItself := by
  intro i s t ht herr
  rw [statusErr_of_exec ht] at herr
  rw [exec_next_iff] at ht
  cases ho : commandOutcome i s with
  | ok r => rw [ho] at herr; exact absurd rfl herr
  | error e =>
    rw [ho] at ht
    rw [exec_next_iff, ht, commandOutcome_complete_error, ho, complete_error_complete_error]

/-- A step of a system is the step of one block, put in its place (R154). -/
theorem stepInstance_eq_some {cfgs : Nat → Config} {k : Nat} {blocks blocks' : List State}
    (h : stepInstance cfgs k blocks = some blocks') :
    ∃ s s', blocks[k]? = some s ∧ stepWith (cfgs k) s = .next s' ∧ blocks' = blocks.set k s' := by
  unfold stepInstance at h
  split at h
  · cases h
  · split at h
    · exact ⟨_, _, ‹_›, ‹_›, (Option.some.inj h).symm⟩
    · cases h
    · cases h

/-- Settles O52: the step replaces one block of the list. -/
theorem instancesAreIndependent : Obligations.InstancesAreIndependent := by
  intro cfgs k blocks blocks' h
  obtain ⟨s, s', hs, hstep, rfl⟩ := stepInstance_eq_some h
  obtain ⟨hk, -⟩ := List.getElem?_eq_some_iff.mp hs
  exact ⟨fun j hj => List.getElem?_set_ne hj.symm, s, s', hs, hstep, List.getElem?_set_self hk⟩

end Sys2Proof.Machine

/-! The invariants of spec/10_state.md R35: at reset, kept by every step, and so in every reachable state. -/

namespace Sys2Proof.Machine

/-! ## What a command's outcome can be -/

theorem length_rev6Fn_le {s r : Bytes} (h : rev6Fn s = .ok (.bytes r)) :
    r.length ≤ 8 * s.length + 17 ∨ r.length = 73 := by
  cases hp : parseIPv6 s with
  | none =>
    rw [rev6Fn_of_none hp] at h
    cases h
    exact .inl (length_nibbleName_expandIncomplete_le s)
  | some G =>
    rw [rev6Fn_of_some hp] at h
    cases h
    exact .inr (length_nibbleName_renderFull (length_of_parseIPv6 hp))

/-- The longest result of any command is REV6's on its fallback path or TBMENC's (R10). -/
theorem length_le_of_commandOutcome {i : Instr} {s : State} {r : Bytes} (h : commandOutcome i s = .ok (.bytes r)) :
    r.length ≤ 8 * s.inLen.toNat + 17 ∨ r.length ≤ 8704 := by
  have hop := length_operandString s
  cases i with
  | expand => have := length_expandFn h; omega
  | expandi => have := length_expandiFn_le h; omega
  | contract => have := length_contractFn_le h; omega
  | rev4 => have := length_rev4Fn_le h; omega
  | rev6 => have := length_rev6Fn_le h; omega
  | tbmenc => cases h; exact .inr (length_encodeSet_le s.tset)
  | tbmdec =>
    have hnil := outcomeBytes_of_typeSet_command (.inl rfl) s
    rw [h] at hnil
    obtain rfl : r = [] := hnil
    exact .inr (Nat.zero_le _)
  | tsetclr => cases h

/-- No result of a command overflows OUT, when the operand fits IN (R10). -/
theorem length_outcomeBytes_le {cfg : Config} (hcfg : cfg.legal) {s : State} (hs : s.inLen.toNat ≤ cfg.inMax)
    (i : Instr) : (outcomeBytes (commandOutcome i s)).length ≤ cfg.outMax := by
  obtain ⟨-, hin, hout⟩ := hcfg
  rcases ho : commandOutcome i s with e | r | S
  · exact Nat.zero_le _
  · have := length_le_of_commandOutcome ho
    simp only [outcomeBytes]
    omega
  · exact Nat.zero_le _

/-- TSET stays in canonical form: what TBMDEC decodes comes out ascending (R127). -/
theorem wf_outcomeSet {s : State} (hs : s.tset.wf) (i : Instr) : (outcomeSet s.tset (commandOutcome i s)).wf := by
  by_cases hi : i = .tbmdec ∨ i = .tsetclr
  · rcases hi with rfl | rfl
    · rcases ho : commandOutcome .tbmdec s with e | r | S
      · exact hs
      · exact hs
      · obtain ⟨W, hW, -, rfl⟩ := windows_of_tbmdecFn ho
        exact wf_windowCodes hW
    · exact List.Pairwise.nil
  · rw [outcomeSet_commandOutcome (not_or.mp hi)]
    exact hs

theorem toNat_outcomeErr_le (o : CommandOutcome) : (outcomeErr o).toNat ≤ 3 := by
  rcases o with e | r
  · cases e <;> decide
  · exact Nat.zero_le _

theorem outcomeErr_of_outcomeFb {fb : Bool} {o : CommandOutcome} (h : outcomeFb fb o = true) :
    outcomeErr o = 0#4 ∧ fb = true := by
  rcases o with e | r
  · cases h
  · exact ⟨rfl, h⟩

theorem outcomeBytes_of_outcomeErr_ne_zero {o : CommandOutcome} (h : outcomeErr o ≠ 0#4) : outcomeBytes o = [] := by
  rcases o with e | r
  · rfl
  · exact absurd rfl h

/-! ## Each update of the state keeps the invariants -/

/-- Settles O22: every field of the reset state is zero or empty. -/
theorem invariantsHoldAtReset : Obligations.InvariantsHoldAtReset := fun cfg =>
  { inLen_le := Nat.zero_le _
    outLen_le := Nat.zero_le _
    out_zero := fun _ _ _ => rfl
    err_le := by decide
    fb_rev6 := by decide
    err_no_result := fun _ => rfl
    reserved_low := by decide
    reserved_high := by decide
    in_wf := Memory.wf_nil
    in_range := by simp [State.reset]
    out_wf := Memory.wf_nil
    tset_wf := List.Pairwise.nil }

section
variable {cfg : Config} {s : State} (h : Inv cfg s)
include h

theorem Inv.setPending (l : List HostTxn) : Inv cfg (s.setPending l) := { h with }

theorem Inv.setReply (r : Reply) : Inv cfg (s.setReply r) := { h with }

theorem Inv.setInLen {v : U32} (hv : v.toNat ≤ cfg.inMax) : Inv cfg (s.setInLen v) := { h with inLen_le := hv }

theorem Inv.writeInLen (v : U32) : Inv cfg (writeInLen cfg.inMax v s) := by
  unfold Machine.writeInLen
  split
  · exact h.setInLen ‹_›
  · exact h

theorem Inv.writeIn {i : Nat} (hi : i < cfg.inMax) (b : Byte) : Inv cfg (s.setInBuf (s.inBuf.write i b)) :=
  { h with
    in_wf := Memory.wf_write h.in_wf i b
    in_range := fun c hc => by
      rcases Memory.mem_write hc with hc | rfl
      · exact h.in_range c hc
      · exact hi }

theorem Inv.writeTset (c : U16) (v : Bool) : Inv cfg (s.setTset (s.tset.write c v)) :=
  { h with tset_wf := TypeSet.wf_write h.tset_wf c v }

/-- A completion keeps the invariants, if its result fits OUT, the set it leaves is in canonical form, and only
REV6's completion has a fallback bit. -/
theorem Inv.complete {op : Byte} {fb : Bool} {o : CommandOutcome} (hlen : (outcomeBytes o).length ≤ cfg.outMax)
    (hset : (outcomeSet s.tset o).wf) (hfb : fb = true → op = 0x05#8) : Inv cfg (complete op fb o s) where
  inLen_le := by simpa using h.inLen_le
  outLen_le := by simpa using toNat_resultLength_le hlen
  out_zero hfits i hi := by
    rw [complete_outLen, toNat_resultLength (hlen.trans_lt hfits)] at hi
    rw [complete_outBuf, Memory.read_ofBytes, List.getD_eq_default _ _ hi]
  err_le := by simpa using toNat_outcomeErr_le o
  fb_rev6 hbit := by
    simp only [complete_status, statusFb_packStatus, statusErr_packStatus, statusOp_packStatus] at hbit ⊢
    exact (outcomeErr_of_outcomeFb hbit).imp_right hfb
  err_no_result herr := by
    rw [complete_status, statusErr_packStatus] at herr
    rw [complete_outLen, outcomeBytes_of_outcomeErr_ne_zero herr, resultLength_nil]
  reserved_low := by simp
  reserved_high := by simp
  in_wf := by simpa using h.in_wf
  in_range := by simpa using h.in_range
  out_wf := by simpa using Memory.wf_ofBytes _
  tset_wf := by simpa using hset

variable (hcfg : cfg.legal)
include hcfg

/-- The write of a command word, legal or not, keeps the invariants. -/
theorem Inv.runCommand {v : U32} {t : State} (hrun : runCommand v s = .next t) : Inv cfg t := by
  rcases runCommand_eq v s with ⟨i, -, -, hi⟩ | ⟨e, -, he⟩
  · obtain rfl := Host.Outcome.next.inj (hi.symm.trans hrun)
    refine h.complete (length_outcomeBytes_le hcfg h.inLen_le i) (wf_outcomeSet h.tset_wf i) fun hfb => ?_
    obtain ⟨rfl, -⟩ := (commandFallback_iff i s).mp hfb
    rfl
  · obtain rfl := Host.Outcome.next.inj (he.symm.trans hrun)
    exact h.complete (Nat.zero_le _) h.tset_wf (fun hfb => by cases hfb)

theorem Inv.txnEffect {t : State} {x : HostTxn} (heff : TxnEffect cfg s t x) : Inv cfg t := by
  cases x with
  | wrin i b => obtain ⟨hi, rfl⟩ := heff; exact (h.writeIn hi b).setReply _
  | rdin i => obtain ⟨-, rfl⟩ := heff; exact h.setReply _
  | rdout i => obtain ⟨-, rfl⟩ := heff; exact h.setReply _
  | wrout i b => exact heff.elim
  | wrtset c v => obtain rfl := heff; exact (h.writeTset c v).setReply _
  | rdtset c => obtain rfl := heff; exact h.setReply _
  | wrcsr n v =>
    rcases heff with ⟨-, hrun⟩ | ⟨-, rfl⟩ | ⟨-, rfl⟩
    · exact (h.setReply _).runCommand hcfg hrun
    · exact h.setReply _
    · exact (h.setReply _).writeInLen v
  | rdcsr n => obtain ⟨v, -, rfl⟩ := heff; exact h.setReply _
  | reset => obtain rfl := heff; exact (invariantsHoldAtReset cfg).setPending _

end

/-- Settles O23: a step does nothing or has the effect of one transaction, and each effect keeps the invariants. -/
theorem stepKeepsInvariants : Obligations.StepKeepsInvariants := by
  intro cfg s t hcfg hs hstep
  rcases step_cases hstep with ⟨-, rfl⟩ | ⟨x, rest, -, heff⟩
  · exact hs
  · exact (hs.setPending rest).txnEffect hcfg heff

/-! ## Reachable states -/

theorem Reachable.inv {cfg : Config} (hcfg : cfg.legal) {s : State} (h : Reachable cfg s) : Inv cfg s := by
  induction h with
  | reset => exact invariantsHoldAtReset cfg
  | input s l _ ih => exact ih.setPending l
  | step s t _ hstep ih => exact stepKeepsInvariants cfg s t hcfg ih hstep

theorem eq_zero_to_three_of_toNat_le {e : BitVec 4} (h : e.toNat ≤ 3) : e = 0#4 ∨ e = 1#4 ∨ e = 2#4 ∨ e = 3#4 := by
  revert e; decide

/-- Settles O24: the invariants hold at reset and every step keeps them. -/
theorem reachableStatesMeetInvariants : Obligations.ReachableStatesMeetInvariants := by
  intro cfg s hcfg hs
  have h := hs.inv hcfg
  exact ⟨h.inLen_le, h.outLen_le, h.out_zero, eq_zero_to_three_of_toNat_le h.err_le, h.fb_rev6, h.err_no_result,
    h.reserved_low, h.reserved_high⟩

end Sys2Proof.Machine

/-! Host scripts (spec/30_encoding.md R66): what `load` and `copyout` leave. -/

namespace Sys2Proof.Machine

/-- Performing two lists of transactions one after the other (R51). -/
theorem runTxns_append_next {cfg : Config} {xs ys : List HostTxn} {s t u : State} {rs rs' : List Reply}
    (hx : runTxns cfg xs s = .next (t, rs)) (hy : runTxns cfg ys t = .next (u, rs')) :
    runTxns cfg (xs ++ ys) s = .next (u, rs ++ rs') := by
  induction xs generalizing s rs with
  | nil => cases hx; exact hy
  | cons x xs ih =>
    rw [runTxns] at hx
    split at hx
    · rename_i s' hs'
      split at hx
      · rename_i hxs
        cases hx
        exact runTxns_cons_next hs' (ih hxs)
      · cases hx
      · cases hx
    · cases hx
    · cases hx

theorem runTxns_singleton {cfg : Config} {x : HostTxn} {s t : State} (h : transact cfg x s = .next t) :
    runTxns cfg [x] s = .next (t, [t.reply]) :=
  runTxns_cons_next h rfl

theorem transact_wrin {cfg : Config} {i : Nat} (hi : i < cfg.inMax) (b : Byte) (s : State) :
    transact cfg (.wrin i b) s = .next ((s.setInBuf (s.inBuf.write i b)).setReply .nothing) := if_pos hi

theorem transact_rdout {cfg : Config} {i : Nat} (hi : i < cfg.outMax) (s : State) :
    transact cfg (.rdout i) s = .next (s.setReply (.byte (s.outBuf.read i))) := if_pos hi

theorem transact_write_inLen {cfg : Config} {v : U32} (hv : v.toNat ≤ cfg.inMax) (s : State) :
    transact cfg (.wrcsr 2 v) s = .next ((s.setReply .nothing).setInLen v) :=
  congrArg Host.Outcome.next (if_pos hv)

/-- A state with other contents of IN and another reply: what the transactions of a script statement lead to before
`IN_LEN` is written. -/
def withInput (s : State) (m : Memory) (r : Reply) : State := (s.setInBuf m).setReply r

/-- Writing `IN_LEN` after the bytes makes them the operand string, and keeps everything else. -/
theorem runTxns_then_inLen {cfg : Config} {xs : List HostTxn} {s : State} {m : Memory} {r : Reply} {rs : List Reply}
    {v : U32} (hx : runTxns cfg xs s = .next (withInput s m r, rs)) (hv : v.toNat ≤ cfg.inMax) :
    ∃ t rs', runTxns cfg (xs ++ [.wrcsr 2 v]) s = .next (t, rs') ∧ operandString t = m.readRange 0 v.toNat ∧
      t.inBuf = m ∧ SameOutput s t ∧ SameTset s t ∧ t.status = s.status ∧ t.pending = s.pending :=
  ⟨_, _, runTxns_append_next hx (runTxns_singleton (transact_write_inLen hv _)), rfl, rfl, ⟨fun _ => rfl, rfl⟩,
    fun _ => rfl, rfl, rfl⟩

/-! ## load -/

theorem runTxns_wrinFrom {cfg : Config} (b : Bytes) {a : Nat} (h : a + b.length ≤ cfg.inMax) (s : State) :
    ∃ r rs, runTxns cfg (wrinFrom a b) s = .next (withInput s (s.inBuf.writeRange a b) r, rs) := by
  induction b generalizing a s with
  | nil => exact ⟨s.reply, [], rfl⟩
  | cons c b ih =>
    rw [List.length_cons] at h
    obtain ⟨r, rs, hrun⟩ := ih (a := a + 1) (by omega) ((s.setInBuf (s.inBuf.write a c)).setReply .nothing)
    exact ⟨r, _, runTxns_cons_next (transact_wrin (by omega) c s) hrun⟩

/-- Settles O50: the bytes are stored as one range, and `IN_LEN` is their number. -/
theorem loadPlacesTheOperand : Obligations.LoadPlacesTheOperand := by
  intro cfg s b hfit hlt
  have hn : (BitVec.ofNat 32 b.length).toNat = b.length := by rw [BitVec.toNat_ofNat, Nat.mod_eq_of_lt hlt]
  obtain ⟨r, rs, hrun⟩ := runTxns_wrinFrom b (a := 0) ((Nat.zero_add _).trans_le hfit) s
  obtain ⟨t, rs', ht, hop, hin, hrest⟩ := runTxns_then_inLen hrun (hn.symm ▸ hfit)
  rw [hn, Memory.readRange_writeRange] at hop
  exact ⟨t, rs', ht, hop, fun a ha => hin ▸ Memory.read_writeRange_outside _ (.inr (by omega)), hrest⟩

/-! ## copyout -/

/-- Reading `n` bytes of OUT and storing each in IN copies them. -/
theorem runTxns_copy {cfg : Config} (s : State) {n : Nat} (hin : n ≤ cfg.inMax) (hout : n ≤ cfg.outMax) :
    ∃ m r rs,
      runTxns cfg ((List.range n).flatMap (fun k => [.rdout k, .wrin k (s.outBuf.read k)])) s =
        .next (withInput s m r, rs) ∧
      ∀ j < n, m.read j = s.outBuf.read j := by
  induction n with
  | zero => exact ⟨s.inBuf, s.reply, [], rfl, nofun⟩
  | succ n ih =>
    obtain ⟨m, r, rs, hrun, hm⟩ := ih (by omega) (by omega)
    rw [List.range_succ, List.flatMap_append, List.flatMap_singleton]
    have hread := transact_rdout (show n < cfg.outMax by omega) (withInput s m r)
    have hstore := transact_wrin (show n < cfg.inMax by omega) (s.outBuf.read n)
      (withInput s m (.byte (s.outBuf.read n)))
    refine ⟨m.write n (s.outBuf.read n), .nothing, _,
      runTxns_append_next hrun (runTxns_cons_next hread (runTxns_singleton hstore)), fun j hj => ?_⟩
    rw [Memory.read_write]
    split
    · rw [‹j = n›]
    · exact hm j (by omega)

/-- Settles O51: the result string is copied byte by byte, and `IN_LEN` takes the value of `OUT_LEN`. -/
theorem copyoutMovesTheResult : Obligations.CopyoutMovesTheResult := by
  intro cfg s hin hout
  obtain ⟨m, r, rs, hrun, hm⟩ := runTxns_copy (s.setReply (.word s.outLen)) hin hout
  obtain ⟨t, rs', ht, hop, -, hrest⟩ := runTxns_then_inLen hrun hin
  have hcopy : m.readRange 0 s.outLen.toNat = resultString s := by
    apply List.ext_getElem?
    intro k
    rw [resultString, Memory.getElem?_readRange, Memory.getElem?_readRange]
    split
    · rw [Nat.zero_add, hm k ‹_›]; rfl
    · rfl
  exact ⟨t, _, runTxns_cons_next rfl ht, hop.trans hcopy, hrest⟩

end Sys2Proof.Machine
